-- ==== Sys2Proof/Word.lean ====
section
/-! DEFINITION. The word types of the core (00_scope.md R6, R7): bytes, 16-bit port words, 64-bit lanes. -/

namespace Sys2Proof

/-- A byte of the message, of the state's byte view, of an error code or of an operand. -/
abbrev Byte := BitVec 8

/-- A command word or a response word: CMDW = RSPW = 16 bits (R7, R70, R73). -/
abbrev Word := BitVec 16

/-- One lane of the state: W = 64 bits (R6, R22). -/
abbrev Lane := BitVec 64

end Sys2Proof
end

