-- ==== Sys2Proof/Syntax.lean ====
section
/-! DEFINITION. The instructions: one constructor per row of spec/opcode_table.json (30_encoding.md R72). -/

namespace Sys2Proof

/-- The six commands of Table 30-2. Words that match no row are no instruction: see `Command`. -/
inductive Instr where
  /-- `NOP` (R126). -/
  | nop
  /-- `START256` (R127). -/
  | start256
  /-- `START512` (R128). -/
  | start512
  /-- `ABSORB imm8` (R130): `imm` is the message byte. -/
  | absorb (imm : Byte)
  /-- `FINAL` (R153). -/
  | final
  /-- `SQUEEZE` (R131). -/
  | squeeze
  deriving DecidableEq, Repr

end Sys2Proof
end

