-- ==== Sys2Proof/WellFormed.lean ====
section
/-! DEFINITION. What a decoded command is, and which commands are well formed (30_encoding.md R74). -/

namespace Sys2Proof

/-- What the decoder makes of a command word (R74, R76): an instruction of the table, the reserved form
`START.BAD imm8`, or `ILLEGAL`, which keeps the offending word. -/
inductive Command where
  | instr (i : Instr)
  | startBad (imm : Byte)
  | illegal (w : Word)
  deriving DecidableEq, Repr

/-- Every `Instr` is well formed: its one operand is a byte by its type, and R71 allows every byte. -/
def Instr.wellFormed : Instr → Bool
  | .nop => true
  | .start256 => true
  | .start512 => true
  | .absorb _ => true
  | .final => true
  | .squeeze => true

/-- The words of R74 (b) and (c): opcode 0x00, 0x03 or 0x04 with a non-zero operand, or opcode 0x05 to 0xFF. -/
def isReservedWord (w : Word) : Bool :=
  let op := w.toNat / 256
  let imm := w.toNat % 256
  ((op == 0 || op == 3 || op == 4) && imm != 0) || decide (5 ≤ op)

/-- A decoded command is well formed when it is of the class its constructor names (R74). -/
def Command.wellFormed : Command → Bool
  | .instr i => i.wellFormed
  | .startBad imm => imm != 0x20 && imm != 0x40
  | .illegal w => isReservedWord w

end Sys2Proof
end

