-- ==== Sys2Proof/Decode.lean ====
section
/-! DEFINITION. Decoding command words, and the encoder written from the same table (30_encoding.md R70 to R76). -/

namespace Sys2Proof

/-- `op = cmd[15:8]` (R70). -/
def opField (w : Word) : Byte := w.extractLsb' 8 8

/-- `imm = cmd[7:0]` (R70). -/
def immField (w : Word) : Byte := w.extractLsb' 0 8

/-- Format C: the word `{op[7:0], imm[7:0]}` (R70). -/
def formatC (op imm : Byte) : Word := op ++ imm

/-- The decode algorithm of R76, total on all 65536 words. -/
def decode (w : Word) : Command :=
  let op := opField w
  let imm := immField w
  if op = 0x01 then
    if imm = 0x20 then .instr .start256
    else if imm = 0x40 then .instr .start512
    else .startBad imm
  else if op = 0x02 then .instr (.absorb imm)
  else if op = 0x00 ∧ imm = 0x00 then .instr .nop
  else if op = 0x03 ∧ imm = 0x00 then .instr .final
  else if op = 0x04 ∧ imm = 0x00 then .instr .squeeze
  else .illegal w

/-- The word of an instruction, from Table 30-2 (R72). -/
def encode : Instr → Word
  | .nop => formatC 0x00 0x00
  | .start256 => formatC 0x01 0x20
  | .start512 => formatC 0x01 0x40
  | .absorb imm => formatC 0x02 imm
  | .final => formatC 0x03 0x00
  | .squeeze => formatC 0x04 0x00

/-- The word of any decoded command: an instruction's, `0x0100 | imm` for START.BAD (R129), the word itself for
ILLEGAL. -/
def Command.word : Command → Word
  | .instr i => encode i
  | .startBad imm => formatC 0x01 imm
  | .illegal w => w

/-- A row of Table 30-2: a word belongs to it when `cmd & mask == bits` (R72). -/
structure OpcodeRow where
  mnemonic : String
  bits : Word
  mask : Word
  deriving DecidableEq, Repr

/-- Table 30-2 (R72). -/
def opcodeTable : List OpcodeRow :=
  [⟨"NOP", 0x0000, 0xFFFF⟩, ⟨"START256", 0x0120, 0xFFFF⟩, ⟨"START512", 0x0140, 0xFFFF⟩,
   ⟨"ABSORB", 0x0200, 0xFF00⟩, ⟨"FINAL", 0x0300, 0xFFFF⟩, ⟨"SQUEEZE", 0x0400, 0xFFFF⟩]

/-- The row's own test: `cmd & mask == match` (R72). -/
def OpcodeRow.accepts (r : OpcodeRow) (w : Word) : Bool := w &&& r.mask == r.bits

/-- The mnemonic of an instruction, as Table 30-2 spells it. -/
def Instr.mnemonic : Instr → String
  | .nop => "NOP"
  | .start256 => "START256"
  | .start512 => "START512"
  | .absorb _ => "ABSORB"
  | .final => "FINAL"
  | .squeeze => "SQUEEZE"

/-- Whether a decoded command is an instruction of the table. -/
def Command.isInstr : Command → Bool
  | .instr _ => true
  | .startBad _ => false
  | .illegal _ => false

/-- Whether a decoded command is START.BAD. -/
def Command.isStartBad : Command → Bool
  | .instr _ => false
  | .startBad _ => true
  | .illegal _ => false

/-- Whether a decoded command is one of the three START forms, which R184 examines before anything else. -/
def Command.isStart : Command → Bool
  | .instr .start256 => true
  | .instr .start512 => true
  | .instr .nop => false
  | .instr (.absorb _) => false
  | .instr .final => false
  | .instr .squeeze => false
  | .startBad _ => true
  | .illegal _ => false

/-- The 16-bit command word whose low `nbits` bits are `w`'s and whose other bits are 0. -/
def portWord (nbits w : Nat) : Word := BitVec.ofNat 16 (w % 2 ^ nbits)

/-- The instruction the decoder reads from a table word; none for START.BAD and ILLEGAL. -/
def decodeTableWord (nbits w : Nat) : Option Instr :=
  match decode (portWord nbits w) with
  | .instr i => some i
  | .startBad _ => none
  | .illegal _ => none

end Sys2Proof
end

