-- ==== Sys2Proof/Config.lean ====
section
/-! DEFINITION. What an implementation fixes: the parameters of 00_scope.md Tables 00-1 and 00-2, and the three
parameters the spec leaves OPEN, which have no body. -/

namespace Sys2Proof.Config

/-- `B_BITS`, the state width in bits (R6). -/
def bBits : Nat := 1600

/-- `B_BYTES`, the state width in bytes (R6). -/
def bBytes : Nat := 200

/-- `W`, the lane width in bits (R6). -/
def laneBits : Nat := 64

/-- `NX = NY`, the lanes per row and the rows (R6). -/
def side : Nat := 5

/-- `NR`, the rounds per permutation (R6). -/
def rounds : Nat := 24

/-- `PTRW`, the width of PTR (R7). -/
def ptrBits : Nat := 8

/-- How the reset input is built; R7 and R210 leave it open. -/
structure ResetKind where
  /-- `rst` is sampled by the clock (else it acts asynchronously). -/
  sampledByClock : Bool
  /-- `rst` is asserted at level 1. -/
  activeHigh : Bool
  /-- The least duration of an assertion, in the implementation's own unit. -/
  minDuration : Nat
  deriving DecidableEq, Repr, Inhabited

/-- `RESET_KIND`, OPEN (R7, R210). No rule depends on it: log entry 9. -/
opaque resetKind : ResetKind

/-- `T_CMD`, OPEN (R7, R222). No rule depends on it: log entry 9. -/
opaque tCmd : Nat

/-- `T_ROUND`, OPEN (R7, R222). No rule depends on it: log entry 9. -/
opaque tRound : Nat

end Sys2Proof.Config
end

