-- ==== Sys2Proof/Machine/Lanes.lean ====
section
/-! DEFINITION. The sponge state as 25 lanes and, the same bits, as 200 bytes (10_state.md R22 to R24; 00_scope.md R10
to R12; 20_memory.md R50 to R52). -/

namespace Sys2Proof.Machine

/-- Row y of the state: the five lanes `A[0..4][y]` (R15). -/
structure Row where
  x0 : Lane
  x1 : Lane
  x2 : Lane
  x3 : Lane
  x4 : Lane
  deriving DecidableEq, Repr

/-- The sponge state: five rows of five 64-bit lanes, always exactly 1600 bits (R22). -/
structure Lanes where
  y0 : Row
  y1 : Row
  y2 : Row
  y3 : Row
  y4 : Row
  deriving DecidableEq, Repr

/-- The lane of a row in column `x`. -/
def Row.lane (r : Row) : Fin 5 → Lane
  | 0 => r.x0
  | 1 => r.x1
  | 2 => r.x2
  | 3 => r.x3
  | 4 => r.x4

/-- Row `y` of the state. -/
def Lanes.row (a : Lanes) : Fin 5 → Row
  | 0 => a.y0
  | 1 => a.y1
  | 2 => a.y2
  | 3 => a.y3
  | 4 => a.y4

/-- `A[x][y]`: column `x`, row `y` (R12, R22). -/
def Lanes.get (a : Lanes) (x y : Fin 5) : Lane := (a.row y).lane x

/-- The row whose lane in column `x` is `f x`. -/
def Row.ofFn (f : Fin 5 → Lane) : Row := ⟨f 0, f 1, f 2, f 3, f 4⟩

/-- The state whose lane `(x, y)` is `f x y`. -/
def Lanes.ofFn (f : Fin 5 → Fin 5 → Lane) : Lanes :=
  ⟨.ofFn (f · 0), .ofFn (f · 1), .ofFn (f · 2), .ofFn (f · 3), .ofFn (f · 4)⟩

/-- All 25 lanes zero. -/
def Lanes.zero : Lanes := .ofFn fun _ _ => 0

/-- `A[x][y] <- v`. -/
def Lanes.set (a : Lanes) (x y : Fin 5) (v : Lane) : Lanes :=
  .ofFn fun x' y' => if x' = x ∧ y' = y then v else a.get x' y'

/-- The column of lane index `i = x + 5y` (R11). -/
def laneX (i : Fin 25) : Fin 5 := ⟨i.val % 5, Nat.mod_lt _ (by decide)⟩

/-- The row of lane index `i = x + 5y` (R11). -/
def laneY (i : Fin 25) : Fin 5 := ⟨i.val / 5, by omega⟩

/-- The lane index `x + 5y` (R11). -/
def laneIndex (x y : Fin 5) : Fin 25 := ⟨x.val + 5 * y.val, by omega⟩

/-- `LANE[i]`, the alias of `A[i mod 5][i div 5]` (R22). -/
def Lanes.lane (a : Lanes) (i : Fin 25) : Lane := a.get (laneX i) (laneY i)

/-- `LANE[i] <- v`. -/
def Lanes.setLane (a : Lanes) (i : Fin 25) (v : Lane) : Lanes := a.set (laneX i) (laneY i) v

/-- `ROTL64(v, n)` for `0 ≤ n ≤ 63` (R10): circular left rotation. -/
def rotl64 (v : Lane) (n : Nat) : Lane := if n = 0 then v else (v <<< n) ||| (v >>> (64 - n))

/-- An address of the state byte space: only 0..199 exist (R50). -/
abbrev StateAddr := Fin 200

/-- The lane that holds byte `j`: `j div 8` (R23, R51). -/
def laneOf (j : StateAddr) : Fin 25 := ⟨j.val / 8, by omega⟩

/-- The lowest bit, in its lane, of byte `j`: `8·(j mod 8)`, little-endian (R23, R52). -/
def bitOf (j : StateAddr) : Nat := 8 * (j.val % 8)

/-- `S[j]`, which is also `MemRead(j, 1)` (R12, R23). -/
def Lanes.byte (a : Lanes) (j : StateAddr) : Byte := (a.lane (laneOf j)).extractLsb' (bitOf j) 8

/-- `S[j] <- v`, which is also `MemWrite(j, 1, v)`: bits `8k+7 : 8k` of lane `j div 8` and no other bit (R12, R23). -/
def Lanes.setByte (a : Lanes) (j : StateAddr) (v : Byte) : Lanes :=
  a.setLane (laneOf j)
    ((a.lane (laneOf j) &&& ~~~((0xFF : Lane) <<< bitOf j)) ||| (v.setWidth 64 <<< bitOf j))

/-- `XORBYTE(j, v)` on the lanes: `LANE[j div 8] <- LANE[j div 8] ^ (zext_64(v) << (8·(j mod 8)))` (R123). -/
def Lanes.xorByte (a : Lanes) (j : StateAddr) (v : Byte) : Lanes :=
  a.setLane (laneOf j) (a.lane (laneOf j) ^^^ (v.setWidth 64 <<< bitOf j))

/-- The lanes of a byte string: `A[x][y] = S[8i] | S[8i+1] << 8 | ... | S[8i+7] << 56` (R23). -/
def Lanes.ofBytes (f : StateAddr → Byte) : Lanes :=
  .ofFn fun x y =>
    let part : Fin 8 → Lane := fun k =>
      (f ⟨8 * (laneIndex x y).val + k.val, by omega⟩).setWidth 64 <<< (8 * k.val)
    part 0 ||| part 1 ||| part 2 ||| part 3 ||| part 4 ||| part 5 ||| part 6 ||| part 7

/-- The 200 bytes of the state, byte 0 first. -/
def Lanes.bytes (a : Lanes) : List Byte := (List.finRange 200).map a.byte

/-- The byte view as a sparse memory: the bytes that are not 0, with rising addresses. An address in 0..199 that is
not listed reads as 0. The lanes are the one store (R23: the two views are one piece of state): log entry 7. -/
def Lanes.cells (a : Lanes) : List (Nat × Byte) :=
  (List.finRange 200).filterMap fun j => if a.byte j = 0 then none else some (j.val, a.byte j)

/-- The canonical form of a sparse memory: addresses strictly rising, inside the space, no entry 0. -/
abbrev Memory.wf (m : List (Nat × Byte)) : Prop :=
  m.Pairwise (fun c d => c.1 < d.1) ∧ ∀ c ∈ m, c.1 < 200 ∧ c.2 ≠ 0

end Sys2Proof.Machine
end

