-- ==== Sys2Proof/Machine/State.lean ====
section
/-! DEFINITION. The state of one core instance, its reset value, the reasons a step can stop (10_state.md R20 to R35). -/

namespace Sys2Proof.Machine

/-- `PHASE` (R27). The five values the register holds; "Values 5, 6, 7 are never held" (log entry 5). Its 3-bit
encoding is `Phase.code`. -/
inductive Phase where
  | idle
  | absorb
  | squeeze
  | done
  | fault
  deriving DecidableEq, Repr

/-- What the host does next at the core's inputs (R32, R80, R210, R212). The model's own type: log entry 1. -/
inductive PortEvent where
  /-- A command word accepted at `cmd_valid = cmd_ready = 1` (R80). -/
  | command (w : Word)
  /-- The Reset event, with no command executing (R210). -/
  | reset
  /-- A command word accepted, then the Reset event before the command's response (R212). -/
  | resetDuring (w : Word)
  deriving DecidableEq, Repr

/-- The state `(A, DSZ, PHASE, PTR, ERR, RND)` of R20, the response on the port, and the host's inputs to come. -/
structure State where
  /-- `A`, the 1600-bit sponge state (R22). -/
  lanes : Lanes
  /-- `DSZ`, 8 bits, the digest size in bytes (R26). -/
  dsz : BitVec 8
  /-- `PHASE` (R27). -/
  phase : Phase
  /-- `PTR`, 8 bits, the index into `S` of the next byte (R28). -/
  ptr : BitVec 8
  /-- `ERR`, 8 bits, the sticky status (R29). -/
  err : BitVec 8
  /-- `RND`, 5 bits, the hidden round counter (R31, R104). -/
  rnd : BitVec 5
  /-- `rsp_valid` and `rsp`: the response of the command that has just executed (R32, R80); log entry 2. -/
  rsp : Option Word
  /-- The model's own field: what the host does next (log entry 1). -/
  inputs : List PortEvent
  deriving DecidableEq, Repr

/-- Why a step stops. Each is raised only in a state that violates R33, where "this spec gives them no behaviour"
(R188): log entry 4. All three are safe: a run from reset never meets one. -/
inductive Fault where
  /-- Raised by ABSORB and FINAL in phase ABSORB with `PTR ≥ RATE`, and by SQUEEZE in phase SQUEEZE with `PTR ≥ DSZ`.
  Safe: the model stops where no behaviour is given. -/
  | pointerOutOfRange
  /-- Raised by ABSORB and FINAL in phase ABSORB, and by SQUEEZE in phase SQUEEZE, when DSZ is neither 32 nor 64.
  Safe: the model stops where no behaviour is given. -/
  | digestSizeIllegal
  /-- Raised by the port model of Machine/Port.lean when a permutation is in progress with `RND ≥ 24`. Safe: the model
  stops where no behaviour is given. -/
  | roundCounterOutOfRange
  deriving DecidableEq, Repr

/-- Why an instruction has no meaning. -/
inductive Refusal where
  /-- Raised by an arm of `exec` for an instruction not modelled yet; no arm does. Safe. -/
  | notModelled (mnemonic : String)
  deriving DecidableEq, Repr

/-- The state after the Reset event (R35, Table 10-2; R210), with no host input to come. -/
def State.reset : State where
  lanes := Lanes.zero
  dsz := 32
  phase := .idle
  ptr := 0
  err := 0
  rnd := 0
  rsp := none
  inputs := []

end Sys2Proof.Machine
end

