-- ==== Sys2Proof/Machine/Operands.lean ====
section
/-! DEFINITION. The operands and codes of the commands: digest sizes and rates, error codes, the register encodings, the
response word (00_scope.md R6; 10_state.md R24, R27; 30_encoding.md R73; 60_exceptions.md R181). -/

namespace Sys2Proof.Machine

/-- `RATE(DSZ) = 200 - 2×DSZ` (R6). -/
def rateOf (dsz : Nat) : Nat := 200 - 2 * dsz

/-- `CAP(DSZ) = 200 - RATE` (R6). -/
def capOf (dsz : Nat) : Nat := 200 - rateOf dsz

/-- The two legal digest sizes (R6, R26). -/
inductive DigestSize where
  | d32
  | d64
  deriving DecidableEq, Repr

/-- The digest size in bytes (R6). -/
def DigestSize.bytes : DigestSize → Nat
  | .d32 => 32
  | .d64 => 64

/-- The value DSZ holds for a digest size (R26). -/
def DigestSize.code : DigestSize → BitVec 8
  | .d32 => 32
  | .d64 => 64

/-- The rate in bytes: 136 or 72 (R6). -/
def DigestSize.rate (d : DigestSize) : Nat := rateOf d.bytes

/-- The digest size DSZ stands for; none for a value R26 says it never holds. -/
def DigestSize.ofReg (dsz : BitVec 8) : Option DigestSize :=
  if dsz = 32 then some .d32 else if dsz = 64 then some .d64 else none

theorem DigestSize.rate_le (d : DigestSize) : d.rate ≤ 200 := by cases d <;> decide

theorem DigestSize.bytes_le (d : DigestSize) : d.bytes ≤ 200 := by cases d <;> decide

/-- The address `RATE - 1` of the last byte of a block. -/
def DigestSize.lastRateByte (d : DigestSize) : StateAddr :=
  ⟨d.rate - 1, by cases d <;> decide⟩

/-- `PAD_START` (R6). -/
def padStart : Byte := 0x06

/-- `PAD_FINAL` (R6). -/
def padFinal : Byte := 0x80

/-- The errors the core raises (R181). -/
inductive ErrorCode where
  /-- `E_ILLEGAL_CMD` -/
  | illegalCmd
  /-- `E_BAD_SIZE` -/
  | badSize
  /-- `E_PHASE` -/
  | phase
  /-- `E_OVERREAD` -/
  | overread
  deriving DecidableEq, Repr

/-- The codes of Table 60-1 that ERR can hold besides 0x00 (R181). -/
def ErrorCode.code : ErrorCode → Byte
  | .illegalCmd => 0x01
  | .badSize => 0x02
  | .phase => 0x03
  | .overread => 0x04

/-- `H_NULL_OUT`, produced by the host procedures only (R181). -/
def hNullOut : Byte := 0x10

/-- `H_OUT_SMALL`, produced by the host procedures only (R181). -/
def hOutSmall : Byte := 0x11

/-- The 3-bit encoding of PHASE (R27). -/
def Phase.code : Phase → BitVec 3
  | .idle => 0
  | .absorb => 1
  | .squeeze => 2
  | .done => 3
  | .fault => 4

/-- Format R: the response word `{status[7:0], data[7:0]}` (R73). -/
def formatR (status data : Byte) : Word := status ++ data

/-- `status = rsp[15:8]` (R73). -/
def statusField (r : Word) : Byte := r.extractLsb' 8 8

/-- `data = rsp[7:0]` (R73). -/
def dataField (r : Word) : Byte := r.extractLsb' 0 8

end Sys2Proof.Machine
end

