-- ==== Sys2Proof/Machine/Flags.lean ====
section
/-! DEFINITION. The status outputs. The core has no arithmetic flags; `done`, `fault` and `busy` are computed from the
registers and have no storage of their own (10_state.md R30, R32). -/

namespace Sys2Proof.Machine

/-- The output `done = (PHASE == 3)` (R30). -/
def State.doneFlag (s : State) : Bool := s.phase.code == 3

/-- The output `fault = (PHASE == 4)` (R30). -/
def State.faultFlag (s : State) : Bool := s.phase.code == 4

/-- The outputs of Table 10-1 (R32). `rsp_valid` is `rsp.isSome`; R32 gives `rsp` no value while `rsp_valid = 0`. -/
structure Outputs where
  cmdReady : Bool
  rspValid : Bool
  rsp : Option Word
  phase : BitVec 3
  err : BitVec 8
  busy : Bool
  done : Bool
  fault : Bool
  deriving DecidableEq, Repr

/-- The outputs for a given value of `busy`; `cmd_ready = not busy` (R32). -/
def outputsWhen (busy : Bool) (s : State) : Outputs where
  cmdReady := !busy
  rspValid := s.rsp.isSome
  rsp := s.rsp
  phase := s.phase.code
  err := s.err
  busy := busy
  done := s.doneFlag
  fault := s.faultFlag

/-- The outputs between commands, where `busy` is 0 (R31). -/
def State.outputs (s : State) : Outputs := outputsWhen false s

end Sys2Proof.Machine
end

