-- ==== Sys2Proof/Machine/Permutation.lean ====
section
/-! DEFINITION. The Permutation Engine: THETA, RHO, PI, CHI, IOTA, ROUND, KECCAK_F and the constant tables
(40_permutation_engine.md R90 to R103). Index arithmetic on `Fin 5` is modulo 5 (00_scope.md R11). The formulas and
tables are the spec's, marked there as general knowledge: log entry 8. -/

namespace Sys2Proof.Machine

/-- Table 40-1 by lane index `i = x + 5y` (R96). -/
def rhoOffsets : List Nat :=
  [0, 1, 62, 28, 27,
   36, 44, 6, 55, 20,
   3, 10, 43, 25, 39,
   41, 45, 15, 21, 8,
   18, 2, 61, 56, 14]

/-- `RHO_OFF[x][y]` (R96). -/
def rhoOff (x y : Fin 5) : Nat := rhoOffsets.get (Fin.cast rfl (laneIndex x y))

/-- `RC[ir]`, row by row as Table 40-3 prints it (R101). -/
def rc : Fin 24 → Lane
  | 0 => 0x0000000000000001 | 8 => 0x000000000000008A | 16 => 0x8000000000008002
  | 1 => 0x0000000000008082 | 9 => 0x0000000000000088 | 17 => 0x8000000000000080
  | 2 => 0x800000000000808A | 10 => 0x0000000080008009 | 18 => 0x000000000000800A
  | 3 => 0x8000000080008000 | 11 => 0x000000008000000A | 19 => 0x800000008000000A
  | 4 => 0x000000000000808B | 12 => 0x000000008000808B | 20 => 0x8000000080008081
  | 5 => 0x0000000080000001 | 13 => 0x800000000000008B | 21 => 0x8000000000008080
  | 6 => 0x8000000080008081 | 14 => 0x8000000000008089 | 22 => 0x0000000080000001
  | 7 => 0x8000000000008009 | 15 => 0x8000000000008003 | 23 => 0x8000000080008008
  | ⟨n + 24, h⟩ => absurd h (by omega)

/-- `PI_SRC` of Table 40-2 (R98). -/
def piSrc : List (Fin 25) :=
  [0, 6, 12, 18, 24, 3, 9, 10, 16, 22, 1, 7, 13, 19, 20, 4, 5, 11, 17, 23, 2, 8, 14, 15, 21]

/-- `PI_DST` of Table 40-2 (R98). -/
def piDst : List (Fin 25) :=
  [0, 10, 20, 5, 15, 16, 1, 11, 21, 6, 7, 17, 2, 12, 22, 23, 8, 18, 3, 13, 14, 24, 9, 19, 4]

/-- `C[x]`, the parity of column `x` (R92). -/
def Lanes.parity (a : Lanes) (x : Fin 5) : Lane :=
  a.get x 0 ^^^ a.get x 1 ^^^ a.get x 2 ^^^ a.get x 3 ^^^ a.get x 4

/-- `D[x]` of THETA (R92). -/
def Lanes.thetaD (a : Lanes) (x : Fin 5) : Lane := a.parity (x + 4) ^^^ rotl64 (a.parity (x + 1)) 1

/-- `THETA` (R92). -/
def Lanes.theta (a : Lanes) : Lanes := .ofFn fun x y => a.get x y ^^^ a.thetaD x

/-- `RHO` (R95). -/
def Lanes.rho (a : Lanes) : Lanes := .ofFn fun x y => rotl64 (a.get x y) (rhoOff x y)

/-- `PI`, in the form that says where each output lane comes from (R97). -/
def Lanes.pi (a : Lanes) : Lanes := .ofFn fun x y => a.get (x + 3 * y) x

/-- `CHI` (R99). -/
def Lanes.chi (a : Lanes) : Lanes :=
  .ofFn fun x y => a.get x y ^^^ (~~~(a.get (x + 1) y) &&& a.get (x + 2) y)

/-- `IOTA(ir)` (R100). -/
def Lanes.iota (a : Lanes) (ir : Fin 24) : Lanes := a.set 0 0 (a.get 0 0 ^^^ rc ir)

/-- `ROUND(ir)` (R102). -/
def Lanes.round (a : Lanes) (ir : Fin 24) : Lanes := a.theta.rho.pi.chi.iota ir

/-- `KECCAK_F`: the rounds 0, 1, ..., 23 in this order (R103). -/
def Lanes.keccakF (a : Lanes) : Lanes := (List.finRange 24).foldl Lanes.round a

/-- The walk that generates the offsets (R96): after `t` moves from `(1, 0)`, each move being
`(x, y) <- (y, (2x + 3y) mod 5)`. -/
def rhoWalk : Nat → Fin 5 × Fin 5
  | 0 => (1, 0)
  | t + 1 => ((rhoWalk t).2, 2 * (rhoWalk t).1 + 3 * (rhoWalk t).2)

/-- The offset the walk gives at time `t` (R96). -/
def rhoWalkOffset (t : Nat) : Nat := ((t + 1) * (t + 2) / 2) % 64

/-- One step of the register that generates the round constants (R101). -/
def rcStep (r : Byte) : Byte := (r <<< 1) ^^^ (if r.getLsbD 7 then 0x71 else 0)

/-- The register after `t` steps from 0x01 (R101). -/
def rcRegister : Nat → Byte
  | 0 => 0x01
  | t + 1 => rcStep (rcRegister t)

/-- `rc(t)`: bit 0 of the register after `t mod 255` steps (R101). -/
def rcBit (t : Nat) : Bool := (rcRegister (t % 255)).getLsbD 0

end Sys2Proof.Machine
end

