-- ==== Sys2Proof/Machine/Ops.lean ====
section
/-! DEFINITION. The shared operations: responding, raising an error, the FAULT phase, the pointer windows, XORBYTE, PERMUTE,
the START of an invocation, the Reset event. -/

namespace Sys2Proof.Machine

/-- `MemRead(j, 1)` (R12). -/
def memRead (j : StateAddr) (s : State) : Byte := s.lanes.byte j

/-- `MemWrite(j, 1, v)` (R12). -/
def memWrite (j : StateAddr) (v : Byte) (s : State) : State := { s with lanes := s.lanes.setByte j v }

/-- The command's one response word: the status is ERR after the command (R73). In the states of R33 this is the status
each command's pseudocode writes out: log entry 6. -/
def respond (data : Byte) (s : State) : State := { s with rsp := some (formatR s.err data) }

/-- `raise E(code)` with the response that ends the command (R183): ERR and PHASE change and nothing else. This is the
core's only trap; there is no return from it, only a START or the Reset event (R186). -/
def raiseError (e : ErrorCode) (s : State) : State :=
  respond 0x00 { s with err := e.code, phase := .fault }

/-- Step 2 of R184: in phase FAULT a command other than a START changes nothing and answers `{ERR, 0x00}` (R185). -/
def unlessFaulted (s : State) (k : Host.Outcome State Fault Refusal) : Host.Outcome State Fault Refusal :=
  if s.phase = .fault then .next (respond 0x00 s) else k

/-- The digest size and the address PTR when DSZ is legal and PTR is below the window's limit; otherwise the reason to
stop (R33 I1, I4, I5; R188). -/
def pointerBelow (limit : DigestSize → Nat) (bound : ∀ d, limit d ≤ 200) (s : State) :
    Except Fault (DigestSize × StateAddr) :=
  match DigestSize.ofReg s.dsz with
  | none => .error .digestSizeIllegal
  | some d =>
    if h : s.ptr.toNat < limit d then .ok (d, ⟨s.ptr.toNat, Nat.lt_of_lt_of_le h (bound d)⟩)
    else .error .pointerOutOfRange

/-- PTR as an address of the rate region `0 .. RATE-1` (R24, R123). -/
def ratePointer (s : State) : Except Fault (DigestSize × StateAddr) :=
  pointerBelow DigestSize.rate DigestSize.rate_le s

/-- PTR as an address of the digest window `0 .. DSZ-1` (R51). -/
def digestPointer (s : State) : Except Fault (DigestSize × StateAddr) :=
  pointerBelow DigestSize.bytes DigestSize.bytes_le s

/-- `XORBYTE(j, v)` (R123). -/
def xorByte (j : StateAddr) (v : Byte) (s : State) : State := { s with lanes := s.lanes.xorByte j v }

/-- One iteration of PERMUTE's loop, RND holding `ir` before it: `A <- ROUND(A, RND); RND <- RND + 1` (R104). -/
def roundStep (s : State) (ir : Fin 24) : State :=
  { s with lanes := s.lanes.round ir, rnd := BitVec.ofNat 5 (ir.val + 1) }

/-- `PERMUTE` (R104). -/
def permute (s : State) : State :=
  { (List.finRange 24).foldl roundStep { s with rnd := 0 } with rnd := 0 }

/-- What a START of a legal size does (R127, R128): a fresh invocation whatever the state was. -/
def startInvocation (d : DigestSize) (s : State) : State :=
  respond 0x00 { s with err := 0, lanes := .zero, dsz := d.code, ptr := 0, phase := .absorb }

/-- What ABSORB leaves to do after the permutation of a completed block: `PTR <- 0` (R130). -/
def closeBlock (s : State) : State := { s with ptr := 0 }

/-- What FINAL leaves to do after its permutation: `PTR <- 0; PHASE <- SQUEEZE` (R153). -/
def openSqueeze (s : State) : State := { s with ptr := 0, phase := .squeeze }

/-- The body of ABSORB in phase ABSORB, with `p` the address PTR (R130). -/
def absorbByte (d : DigestSize) (p : StateAddr) (v : Byte) (s : State) : State :=
  if p = d.lastRateByte then closeBlock (permute (xorByte p v s))
  else { xorByte p v s with ptr := s.ptr + 1 }

/-- The two XORs of FINAL: the start byte at PTR, then the final-byte flag at `RATE - 1` (R153). -/
def injectPadding (d : DigestSize) (p : StateAddr) (s : State) : State :=
  xorByte d.lastRateByte padFinal (xorByte p padStart s)

/-- What SQUEEZE does after it has read its byte: the last one discards the state (R131, R132). -/
def afterSqueeze (d : DigestSize) (p : StateAddr) (s : State) : State :=
  if p.val = d.bytes - 1 then { s with lanes := .zero, ptr := 0, phase := .done }
  else { s with ptr := s.ptr + 1 }

/-- The Reset event (R210): the reset state whatever the state was; the host's inputs to come are not the core's. -/
def resetEvent (s : State) : State := { State.reset with inputs := s.inputs }

/-- A step in which the host presents nothing: the core waits, and a response that has appeared once is gone (R80,
R221; log entry 10). -/
def waitForHost (s : State) : State := { s with rsp := none }

end Sys2Proof.Machine
end

