-- ==== Sys2Proof/Machine/Controller.lean ====
section
/-! DEFINITION. The sponge controller's commands: NOP, START256, START512, ABSORB, SQUEEZE (41_sponge_controller.md R126 to
R133). -/

namespace Sys2Proof.Machine

/-- `NOP` (R126): legal in every phase; reports ERR. -/
def execNop (s : State) : Host.Outcome State Fault Refusal := .next (respond 0x00 s)

/-- `START256` (R127): legal in every phase, FAULT included. -/
def execStart256 (s : State) : Host.Outcome State Fault Refusal := .next (startInvocation .d32 s)

/-- `START512` (R128): legal in every phase, FAULT included. -/
def execStart512 (s : State) : Host.Outcome State Fault Refusal := .next (startInvocation .d64 s)

/-- `ABSORB imm8` (R130). -/
def execAbsorb (imm : Byte) (s : State) : Host.Outcome State Fault Refusal :=
  unlessFaulted s <|
    if s.phase = .absorb then
      match ratePointer s with
      | .ok (d, p) => .next (respond 0x00 (absorbByte d p imm s))
      | .error f => .fault f
    else .next (raiseError .phase s)

/-- `SQUEEZE` (R131). -/
def execSqueeze (s : State) : Host.Outcome State Fault Refusal :=
  unlessFaulted s <|
    if s.phase = .done then .next (raiseError .overread s)
    else if s.phase = .squeeze then
      match digestPointer s with
      | .ok (d, p) => .next (respond (memRead p s) (afterSqueeze d p s))
      | .error f => .fault f
    else .next (raiseError .phase s)

end Sys2Proof.Machine
end

