-- ==== Sys2Proof/Machine/Padding.lean ====
section
/-! DEFINITION. The padding injector's command: FINAL (42_padding_injector.md R153). -/

namespace Sys2Proof.Machine

/-- `FINAL` (R153). -/
def execFinal (s : State) : Host.Outcome State Fault Refusal :=
  unlessFaulted s <|
    if s.phase = .absorb then
      match ratePointer s with
      | .ok (d, p) => .next (respond 0x00 (openSqueeze (permute (injectPadding d p s))))
      | .error f => .fault f
    else .next (raiseError .phase s)

end Sys2Proof.Machine
end

