-- ==== Sys2Proof/Machine/Dispatch.lean ====
section
/-! DEFINITION. One arm per instruction. -/

namespace Sys2Proof.Machine

def exec (i : Instr) (s : State) : Host.Outcome State Fault Refusal :=
  match i with
  | .nop => Sys2Proof.Machine.execNop s
  | .start256 => Sys2Proof.Machine.execStart256 s
  | .start512 => Sys2Proof.Machine.execStart512 s
  | .absorb imm => Sys2Proof.Machine.execAbsorb imm s
  | .final => Sys2Proof.Machine.execFinal s
  | .squeeze => Sys2Proof.Machine.execSqueeze s

end Sys2Proof.Machine
end

