-- ==== Sys2Proof/Machine/Reserved.lean ====
section
/-! DEFINITION. What the words that are no instruction do: START.BAD and ILLEGAL (30_encoding.md R74;
41_sponge_controller.md R129; 60_exceptions.md R184). -/

namespace Sys2Proof.Machine

/-- `START.BAD imm8` (R129): clears ERR as every START does, then raises E_BAD_SIZE, in every phase. -/
def execStartBad (_imm : Byte) (s : State) : Host.Outcome State Fault Refusal :=
  .next (raiseError .badSize { s with err := 0 })

/-- `ILLEGAL` (R184 step 3): raises E_ILLEGAL_CMD in every phase but FAULT. -/
def execIllegal (_w : Word) (s : State) : Host.Outcome State Fault Refusal :=
  unlessFaulted s (.next (raiseError .illegalCmd s))

end Sys2Proof.Machine
end

