-- ==== Sys2Proof/Machine/Command.lean ====
section
/-! DEFINITION. Executing a command word, and issuing a sequence of them: the function `State × Cmd → State × Rsp` of
30_encoding.md R80. -/

namespace Sys2Proof.Machine

/-- A decoded command executes (R184): an instruction by `exec`, the two other classes by the errors they raise. -/
def execCommand (c : Command) (s : State) : Host.Outcome State Fault Refusal :=
  match c with
  | .instr i => exec i s
  | .startBad imm => execStartBad imm s
  | .illegal w => execIllegal w s

/-- An accepted command word executes to completion (R58, R80, R184). -/
def runCommand (w : Word) (s : State) : Host.Outcome State Fault Refusal := execCommand (decode w) s

/-- The next state of an outcome, if it is one. -/
def nextOf : Host.Outcome State Fault Refusal → Option State
  | .next s => some s
  | .fault _ => none
  | .refused _ => none

/-- The command port as a function (R80): the state after a command and its response word; none if the model stops. -/
def issue (w : Word) (s : State) : Option (State × Word) :=
  match runCommand w s with
  | .next t => t.rsp.map fun r => (t, r)
  | .fault _ => none
  | .refused _ => none

/-- Command words issued one after another, and their responses in command order (R58). -/
def issueAll : List Word → State → Option (State × List Word)
  | [], s => some (s, [])
  | w :: ws, s =>
    match issue w s with
    | none => none
    | some (t, r) =>
      match issueAll ws t with
      | none => none
      | some (u, rs) => some (u, r :: rs)

end Sys2Proof.Machine
end

