-- ==== Sys2Proof/Machine/Step.lean ====
section
/-! DEFINITION. One step of the machine: the host's next input takes effect, whole. -/

namespace Sys2Proof.Machine

/-- One step: the next event at the inputs. A command word executes to completion (R58, R80); the Reset event gives the
reset state (R210), and so it does when it comes before the response of a command in progress, which is discarded
(R212); with no event the core waits for the host (R221). -/
def step (s : State) : Host.Outcome State Fault Refusal :=
  match s.inputs with
  | [] => .next (waitForHost s)
  | .command w :: rest => runCommand w { s with inputs := rest }
  | .reset :: rest => .next (resetEvent { s with inputs := rest })
  | .resetDuring _ :: rest => .next (resetEvent { s with inputs := rest })

/-- The state in which the host presents the word next. The core has no program: log entry 1 says how one comes to run. -/
def State.withFetchWord (s : State) (nbits w : Nat) : State :=
  { s with inputs := .command (portWord nbits w) :: s.inputs }

end Sys2Proof.Machine
end

