-- ==== Sys2Proof/Machine/Pseudo.lean ====
section
/-! DEFINITION. The notation of commands and the pseudo-instructions, each a list of command words (30_encoding.md R77, R78;
43_public_hash.md R168). -/

namespace Sys2Proof.Machine

/-- `START n`: `0x01nn` for any size operand (R77). -/
def startN (n : Byte) : Word := formatC 0x01 n

/-- The START of a legal size (R168). -/
def DigestSize.start : DigestSize → Instr
  | .d32 => .start256
  | .d64 => .start512

/-- `ABSORBN b0, b1, ...` (R78). -/
def absorbN (m : List Byte) : List Word := m.map fun b => encode (.absorb b)

/-- `ABSORBS "text"`: ABSORBN of the ASCII codes (R78); none if a character has no ASCII code. -/
def absorbS (text : String) : Option (List Word) :=
  if text.toList.all fun c => c.toNat < 128 then
    some (absorbN (text.toList.map fun c => BitVec.ofNat 8 c.toNat))
  else none

/-- `SQUEEZEN n` (R78). -/
def squeezeN (n : Nat) : List Word := List.replicate n (encode .squeeze)

/-- The command words of one invocation (R168). -/
def hashWords (d : DigestSize) (m : List Byte) : List Word :=
  encode d.start :: (absorbN m ++ encode .final :: squeezeN d.bytes)

/-- `HASH256 M` (R78). -/
def hash256Words (m : List Byte) : List Word := hashWords .d32 m

/-- `HASH512 M` (R78). -/
def hash512Words (m : List Byte) : List Word := hashWords .d64 m

/-- A hexadecimal digit, in capitals. -/
def hexDigit (n : Nat) : Char := "0123456789ABCDEF".toList.getD (n % 16) '0'

/-- A byte as `0x00` to `0xFF` (R77). -/
def hexByte (b : Byte) : String :=
  "0x" ++ String.ofList [hexDigit (b.toNat / 16), hexDigit b.toNat]

/-- A word as `0x0000` to `0xFFFF` (R77). -/
def hexWord (w : Word) : String :=
  "0x" ++ String.ofList
    [hexDigit (w.toNat / 4096), hexDigit (w.toNat / 256), hexDigit (w.toNat / 16), hexDigit w.toNat]

/-- A command as R77 writes it: the mnemonic and, for ABSORB, its operand; `START n` for START.BAD; an ILLEGAL word has
no notation. -/
def commandText : Command → Option String
  | .instr .nop => some "NOP"
  | .instr .start256 => some "START256"
  | .instr .start512 => some "START512"
  | .instr (.absorb imm) => some ("ABSORB " ++ hexByte imm)
  | .instr .final => some "FINAL"
  | .instr .squeeze => some "SQUEEZE"
  | .startBad imm => some ("START " ++ toString imm.toNat)
  | .illegal _ => none

/-- A line of a listing: the word, then the command (R77). -/
def listingLine (w : Word) : Option String :=
  (commandText (decode w)).map fun t => hexWord w ++ "  " ++ t

end Sys2Proof.Machine
end

