-- ==== Sys2Proof/Machine/HostProcedures.lean ====
section
/-! DEFINITION. The host procedures hash256 and hash512, run against one core instance (43_public_hash.md R170, R171). -/

namespace Sys2Proof.Machine

/-- What a host procedure leaves: its status, the caller's output buffer, the core. -/
structure HashReturn where
  status : Byte
  output : Option (List Byte)
  core : State
  deriving DecidableEq, Repr

/-- How a call of a host procedure ends. The last three say that no meaning is given (log entry 11); all are safe. -/
inductive HashCall where
  /-- The procedure returns to its caller. -/
  | returned (r : HashReturn)
  /-- The input buffer is shorter than `inputLength`: the procedure would read outside it. -/
  | inputUnreadable
  /-- The output buffer is shorter than `outCap` claims and than the digest: the procedure would write outside it. -/
  | outputUnwritable
  /-- The core stopped: it was in a state that violates R33. -/
  | coreStopped
  deriving DecidableEq, Repr

/-- Issues the words in order and stops after the first response whose status is not 0 (R170): the core and the status
of the last response, 0x00 if there is none. -/
def issueWhileOk : List Word → State → Option (State × Byte)
  | [], s => some (s, 0x00)
  | w :: ws, s =>
    match issue w s with
    | none => none
    | some (t, r) => if statusField r = 0x00 then issueWhileOk ws t else some (t, statusField r)

/-- The squeeze loop: `n` SQUEEZE commands, the data byte of each written at the next place of the output from `j` on,
stopping at the first status that is not 0 (R170). -/
def squeezeInto : Nat → Nat → List Byte → State → Option (State × Byte × List Byte)
  | 0, _, out, s => some (s, 0x00, out)
  | n + 1, j, out, s =>
    match issue (encode .squeeze) s with
    | none => none
    | some (t, r) =>
      if statusField r = 0x00 then squeezeInto n (j + 1) (out.set j (dataField r)) t
      else some (t, statusField r, out)

/-- The body that hash256 and hash512 share (R170, R171): `output` is the caller's buffer or absent, `outCap` what the
caller says it can hold, `l` the input length. -/
def hashProcedure (d : DigestSize) (output : Option (List Byte)) (outCap : Nat) (input : List Byte) (l : Nat)
    (s : State) : HashCall :=
  match output with
  | none => .returned ⟨hNullOut, none, s⟩
  | some out =>
    if outCap < d.bytes then .returned ⟨hOutSmall, some out, s⟩
    else if input.length < l then .inputUnreadable
    else if out.length < d.bytes then .outputUnwritable
    else
      match issueWhileOk (encode d.start :: (absorbN (input.take l) ++ [encode .final])) s with
      | none => .coreStopped
      | some (t, status) =>
        if status = 0x00 then
          match squeezeInto d.bytes 0 out t with
          | none => .coreStopped
          | some (u, status', out') => .returned ⟨status', some out', u⟩
        else .returned ⟨status, some out, t⟩

/-- `hash256(output, outCap, input, inputLength)` (R170). -/
def hash256 (output : Option (List Byte)) (outCap : Nat) (input : List Byte) (l : Nat) (s : State) : HashCall :=
  hashProcedure .d32 output outCap input l s

/-- `hash512(output, outCap, input, inputLength)` (R171). -/
def hash512 (output : Option (List Byte)) (outCap : Nat) (input : List Byte) (l : Nat) (s : State) : HashCall :=
  hashProcedure .d64 output outCap input l s

end Sys2Proof.Machine
end

