-- ==== Sys2Proof/Machine/Port.lean ====
section
/-! DEFINITION. The core at its pins, in ticks finer than a command: the handshake, `busy`, RND while PERMUTE runs round by
round, and a Reset at any moment (10_state.md R31, R32; 30_encoding.md R80; 40_permutation_engine.md R104;
70_reset_and_hazards.md R210 to R214, R222). A tick is no clock cycle: log entry 3. -/

namespace Sys2Proof.Machine

/-- The inputs of Table 10-1 at a tick (R32). -/
structure Pins where
  rst : Bool
  cmdValid : Bool
  cmd : Word
  deriving DecidableEq, Repr

/-- What the command that runs PERMUTE does once it is over: ABSORB's `PTR <- 0` or FINAL's opening of the squeeze. -/
inductive AfterPermute where
  | absorb
  | final
  deriving DecidableEq, Repr

/-- The command in progress: accepted and not begun, or in the permutation. -/
inductive Job where
  | accepted (w : Word)
  | permuting (k : AfterPermute)
  deriving DecidableEq, Repr

/-- The core with the command in progress, if there is one. -/
structure PortState where
  core : State
  job : Option Job
  deriving DecidableEq, Repr

/-- `busy` is 1 exactly while a command is executing (R31). -/
def PortState.busy (p : PortState) : Bool := p.job.isSome

/-- The outputs of Table 10-1, while a command executes too (R32). -/
def PortState.outputs (p : PortState) : Outputs := outputsWhen p.busy p.core

/-- The state in which an instruction starts PERMUTE, its byte XORs done, and what follows the permutation; none if the
instruction runs no permutation in this state (R104: only ABSORB at a block boundary and FINAL do). -/
def beforePermute (i : Instr) (s : State) : Option (State × AfterPermute) :=
  match i with
  | .absorb v =>
    if s.phase = .absorb then
      match ratePointer s with
      | .ok (d, p) => if p = d.lastRateByte then some (xorByte p v s, .absorb) else none
      | .error _ => none
    else none
  | .final =>
    if s.phase = .absorb then
      match ratePointer s with
      | .ok (d, p) => some (injectPadding d p s, .final)
      | .error _ => none
    else none
  | .nop => none
  | .start256 => none
  | .start512 => none
  | .squeeze => none

/-- The same for a decoded command: START.BAD and ILLEGAL run no permutation. -/
def commandBeforePermute (c : Command) (s : State) : Option (State × AfterPermute) :=
  match c with
  | .instr i => beforePermute i s
  | .startBad _ => none
  | .illegal _ => none

/-- The end of the command that ran PERMUTE, with its response (R130, R153). -/
def AfterPermute.finish (k : AfterPermute) (s : State) : State :=
  match k with
  | .absorb => respond 0x00 (closeBlock s)
  | .final => respond 0x00 (openSqueeze s)

/-- The round PERMUTE is about to apply: the value of RND, in 0..23 (R31). -/
def roundIndex (rnd : BitVec 5) : Option (Fin 24) :=
  if h : rnd.toNat < 24 then some ⟨rnd.toNat, h⟩ else none

/-- One tick. `rst` overrides everything (R210, R212). With no command in progress a presented word is accepted (R80);
with one in progress the word on `cmd` is no command at all (R214), and the command goes on: it either completes, or
starts PERMUTE, or applies one round; after round 23 RND returns to 0 and the command completes with its response. -/
def tick (pins : Pins) (p : PortState) : Host.Outcome PortState Fault Refusal :=
  if pins.rst then .next { core := resetEvent p.core, job := none }
  else
    match p.job with
    | none =>
      if pins.cmdValid then .next { core := waitForHost p.core, job := some (.accepted pins.cmd) }
      else .next { core := waitForHost p.core, job := none }
    | some (.accepted w) =>
      match commandBeforePermute (decode w) p.core with
      | some (s, k) => .next { core := { s with rnd := 0 }, job := some (.permuting k) }
      | none =>
        match runCommand w p.core with
        | .next t => .next { core := t, job := none }
        | .fault f => .fault f
        | .refused r => .refused r
    | some (.permuting k) =>
      match roundIndex p.core.rnd with
      | none => .fault .roundCounterOutOfRange
      | some ir =>
        let s := roundStep p.core ir
        if ir.val = 23 then .next { core := k.finish { s with rnd := 0 }, job := none }
        else .next { core := s, job := some (.permuting k) }

/-- Ticks with the given pins, one after another. -/
def ticks : List Pins → PortState → Host.Outcome PortState Fault Refusal
  | [], p => .next p
  | pins :: rest, p =>
    match tick pins p with
    | .next q => ticks rest q
    | .fault f => .fault f
    | .refused r => .refused r

/-- The cycles from acceptance to response: T_CMD, and 24·T_ROUND more with a permutation (R222). Both are open
(log entry 9) and no rule depends on them. -/
def commandCycles (w : Word) (s : State) : Nat :=
  if (commandBeforePermute (decode w) s).isSome then Config.tCmd + Config.rounds * Config.tRound
  else Config.tCmd

end Sys2Proof.Machine
end

