-- ==== Sys2Proof/Machine/Reference.lean ====
section
/-! DEFINITION. The reference functions over byte strings: PAD, ABSORB_ALL, SPONGE, SHA3_256, SHA3_512
(42_padding_injector.md R150; 41_sponge_controller.md R120, R121; 43_public_hash.md R165, R166). They use the lanes and
KECCAK_F and nothing of the commands. -/

namespace Sys2Proof.Machine

/-- The length of the padded message: `ceil((L + 1) / R) · R` (R150). -/
def paddedLength (l r : Nat) : Nat := ((l + 1 + (r - 1)) / r) * r

/-- `PAD(M, R)` (R150): the message, zeros to the end, the start byte ORed in after the message, the final-byte flag
ORed into the last byte. -/
def pad (m : List Byte) (r : Nat) : List Byte :=
  let n := paddedLength m.length r
  let p := m ++ List.replicate (n - m.length) 0x00
  let p := p.modify m.length (· ||| padStart)
  p.modify (n - 1) (· ||| padFinal)

/-- One block XORed into the leading bytes of the state; the bytes after the block are untouched (R120). -/
def Lanes.xorBlock (a : Lanes) (block : List Byte) : Lanes :=
  .ofBytes fun j => a.byte j ^^^ block.getD j.val 0x00

/-- `k` blocks of `r` bytes absorbed in order, the permutation after each (R120). -/
def absorbBlocks (r : Nat) : Nat → List Byte → Lanes → Lanes
  | 0, _, a => a
  | k + 1, p, a => absorbBlocks r k (p.drop r) (a.xorBlock (p.take r)).keccakF

/-- `ABSORB_ALL(P, R)` (R120), from the zero state. -/
def absorbAll (p : List Byte) (r : Nat) : Lanes := absorbBlocks r (p.length / r) p .zero

/-- `SPONGE(P, R, d)` (R121): the first `d` bytes of the squeeze block. -/
def sponge (p : List Byte) (r d : Nat) : List Byte :=
  let z := (absorbAll p r).bytes.take r
  z.take d

/-- `SPONGE(PAD(M, R), R, d)` for a digest size and its rate. -/
def sha3 (d : DigestSize) (m : List Byte) : List Byte := sponge (pad m d.rate) d.rate d.bytes

/-- `SHA3_256(M)` (R165). -/
def sha3_256 (m : List Byte) : List Byte := sponge (pad m 136) 136 32

/-- `SHA3_512(M)` (R166). -/
def sha3_512 (m : List Byte) : List Byte := sponge (pad m 72) 72 64

end Sys2Proof.Machine
end

