-- ==== Sys2Proof/Safety.lean ====
section
/-! DEFINITION. What counts as a sound state and as a healthy invocation, in the terms the claims use (10_state.md R33;
60_exceptions.md R187). -/

namespace Sys2Proof.Machine

/-- The invariants of R33 between commands: I1, I3, I4, I5, I6 and, of I7, `RND = 0`. I2 and I8 hold by the types of
PHASE and of the lanes; `busy = 0` because no command is in progress between commands. -/
abbrev State.Inv (s : State) : Prop :=
  (s.dsz = 32 ∨ s.dsz = 64) ∧
  (s.err ≠ 0 ↔ s.phase = .fault) ∧
  (s.phase = .absorb → s.ptr.toNat < rateOf s.dsz.toNat) ∧
  (s.phase = .squeeze → s.ptr.toNat < s.dsz.toNat) ∧
  (s.phase = .idle ∨ s.phase = .done → s.ptr = 0 ∧ s.lanes = Lanes.zero) ∧
  s.rnd = 0

/-- The bounds R28 and R181 give on the values PTR and ERR ever hold: PTR at most 135, ERR a code of Table 60-1 that
the core raises, or 0. -/
abbrev State.Codes (s : State) : Prop := s.ptr.toNat ≤ 135 ∧ s.err.toNat ≤ 4

/-- Every response of the list has status 0x00: the premise R187 asks of a claim about a digest. -/
def cleanResponses (rs : List Word) : Prop := ∀ r ∈ rs, statusField r = 0x00

/-- Two states that agree on `DSZ`, `PHASE`, `PTR`, `ERR` and on the bytes `S[0 .. n-1]`; they may differ in the other
bytes, in RND, in the response of an earlier command and in what the host does next. -/
def State.agreeBelow (n : Nat) (s t : State) : Prop :=
  (∀ j : StateAddr, j.val < n → s.lanes.byte j = t.lanes.byte j) ∧
  s.dsz = t.dsz ∧ s.phase = t.phase ∧ s.ptr = t.ptr ∧ s.err = t.err

end Sys2Proof.Machine
end

