-- ==== Sys2Proof/Certificates/Slice0/Obligations.lean ====
section
/-! DEFINITION. The statements for the provers, file by file of the spec. -/

open Sys2Proof Sys2Proof.Machine

-- Reset

/-- R35, Table 10-2: the value of every piece of state, and of the outputs, after reset. -/
def Obligations.ResetHoldsTheTabledValues : Prop :=
  (∀ x y, State.reset.lanes.get x y = 0) ∧ State.reset.dsz = 0x20 ∧ State.reset.phase.code = 0 ∧
  State.reset.ptr = 0 ∧ State.reset.err = 0x00 ∧ State.reset.rnd = 0 ∧
  State.reset.outputs.busy = false ∧ State.reset.outputs.done = false ∧ State.reset.outputs.fault = false ∧
  State.reset.outputs.cmdReady = true ∧ State.reset.outputs.rspValid = false

/-- R210: the Reset event, whatever the state, between commands (`step`) and at any moment (`tick`). That the host's
inputs still to come stay is the model's own (log entry 1). -/
def Obligations.ResetEventGivesTheResetState : Prop :=
  (∀ s rest, s.inputs = .reset :: rest →
    step s = .next { lanes := .zero, dsz := 32, phase := .idle, ptr := 0, err := 0x00, rnd := 0,
                     rsp := none, inputs := rest }) ∧
  (∀ pins p, pins.rst = true → ∃ q, tick pins p = .next q ∧
    q.core = { lanes := .zero, dsz := 32, phase := .idle, ptr := 0, err := 0x00, rnd := 0,
               rsp := none, inputs := p.core.inputs } ∧
    q.outputs.busy = false ∧ q.outputs.done = false ∧ q.outputs.fault = false ∧
    q.outputs.cmdReady = true ∧ q.outputs.rspValid = false)

/-- R212: a Reset event during a command: no response, and the reset state whatever part of its effect had happened
(`p` is any state with a command in progress, at any round). -/
def Obligations.ResetDuringACommandDiscardsIt : Prop :=
  (∀ s w rest, s.inputs = .resetDuring w :: rest → step s = .next { State.reset with inputs := rest }) ∧
  (∀ pins p, pins.rst = true → p.busy = true → ∃ q, tick pins p = .next q ∧ q.busy = false ∧
    q.core = { State.reset with inputs := p.core.inputs } ∧ q.outputs.rspValid = false)

-- Fetching and decoding

/-- A step runs the decoded command: R80, R184. Taking it from the list of the host's inputs is the model's own
(log entry 1). -/
def Obligations.StepRunsTheDecodedCommand : Prop :=
  ∀ s w rest, s.inputs = .command w :: rest →
    (∀ i : Instr, decode w = .instr i → step s = exec i { s with inputs := rest }) ∧
    (∀ imm, decode w = .startBad imm → step s = execStartBad imm { s with inputs := rest }) ∧
    (∀ v, decode w = .illegal v → step s = execIllegal v { s with inputs := rest })

/-- The word the interface places is the one the next step executes (log entry 1). -/
def Obligations.FetchWordRunsNext : Prop :=
  ∀ (s : State) (w : Word), step (s.withFetchWord 16 w.toNat) = runCommand w s

/-- With nothing presented the core waits: only the response, which appears once (R80), is gone (log entry 10). -/
def Obligations.CoreWaitsForTheHost : Prop :=
  ∀ s, s.inputs = [] → step s = .next { s with rsp := none }

/-- Words written out from Table 30-2 and from vector V38. -/
def Obligations.SampleWordsDecode : Prop :=
  decode 0b0000000000000000#16 = .instr .nop ∧
  decode 0b0000000100100000#16 = .instr .start256 ∧
  decode 0b0000000101000000#16 = .instr .start512 ∧
  decode 0b0000001001100001#16 = .instr (.absorb 0x61) ∧
  decode 0b0000001100000000#16 = .instr .final ∧
  decode 0b0000010000000000#16 = .instr .squeeze ∧
  decode 0x0121 = .startBad 33 ∧ decode 0x0301 = .illegal 0x0301 ∧ decode 0x0500 = .illegal 0x0500

/-- Decoding and encoding are inverse on all well-formed commands and all 65536 words, and on the instructions. -/
def Obligations.DecodeAndEncodeAreInverse : Prop :=
  (∀ c : Command, c.wellFormed = true → decode c.word = c) ∧
  (∀ w : Word, (decode w).wellFormed = true ∧ (decode w).word = w) ∧
  (∀ i : Instr, i.wellFormed = true → decode (encode i) = .instr i)

/-- R72: the rows are disjoint, and a word is decoded to the instruction of the one row it belongs to. -/
def Obligations.TableRowsAreDisjointAndSelect : Prop :=
  (∀ (w : Word) (r r' : OpcodeRow), r ∈ opcodeTable → r' ∈ opcodeTable →
    r.accepts w = true → r'.accepts w = true → r = r') ∧
  (∀ (w : Word) (r : OpcodeRow), r ∈ opcodeTable → r.accepts w = true →
    ∃ i, decode w = .instr i ∧ i.mnemonic = r.mnemonic) ∧
  (∀ (w : Word) (i : Instr), decode w = .instr i → ∃ r ∈ opcodeTable, r.accepts w = true)

/-- The counts of R74 over all 65536 words: 261 instructions, 254 START.BAD, 765 and 64256 ILLEGAL. -/
def Obligations.DecodeClassesHaveTheStatedSizes : Prop :=
  (List.range 65536).countP (fun n => (decode (BitVec.ofNat 16 n)).isInstr) = 261 ∧
  (List.range 65536).countP (fun n => (decode (BitVec.ofNat 16 n)).isStartBad) = 254 ∧
  (List.range 65536).countP (fun n => decide (decode (BitVec.ofNat 16 n) = .illegal (BitVec.ofNat 16 n)) &&
    decide (n < 0x0500)) = 765 ∧
  (List.range 65536).countP (fun n => decide (decode (BitVec.ofNat 16 n) = .illegal (BitVec.ofNat 16 n)) &&
    decide (0x0500 ≤ n)) = 64256

-- Lanes and bytes

/-- R23: the bytes and the lanes are two views of the same bits. -/
def Obligations.ByteViewAndLanesAreOneState : Prop :=
  (∀ (a : Lanes) (x y : Fin 5) (j : StateAddr) (k b : Nat), k < 8 → b < 8 →
    j.val = 8 * (x.val + 5 * y.val) + k → (a.byte j).getLsbD b = (a.get x y).getLsbD (8 * k + b)) ∧
  (∀ a : Lanes, Lanes.ofBytes a.byte = a) ∧
  (∀ (f : StateAddr → Byte) (j : StateAddr), (Lanes.ofBytes f).byte j = f j) ∧
  (∀ (a : Lanes) (j i : StateAddr) (v : Byte), (a.setByte j v).byte i = if i = j then v else a.byte i)

/-- R123: XORBYTE changes one byte, by XOR, and nothing else; a zero byte changes nothing; two to one address compose. -/
def Obligations.XorByteChangesOneByte : Prop :=
  (∀ (j : StateAddr) (v : Byte) (s : State),
    xorByte j v s = { s with lanes := s.lanes.setByte j (s.lanes.byte j ^^^ v) }) ∧
  (∀ (a : Lanes) (j i : StateAddr) (v : Byte),
    (a.xorByte j v).byte i = if i = j then a.byte j ^^^ v else a.byte i) ∧
  (∀ (a : Lanes) (j : StateAddr) (v : Byte) (i : Fin 25),
    (a.xorByte j v).lane i =
      if i.val = j.val / 8 then a.lane i ^^^ (v.setWidth 64 <<< (8 * (j.val % 8))) else a.lane i) ∧
  (∀ (a : Lanes) (j : StateAddr), a.xorByte j 0x00 = a) ∧
  (∀ (a : Lanes) (j : StateAddr) (u v : Byte), (a.xorByte j u).xorByte j v = a.xorByte j (u ^^^ v))

/-- R24: the rate region is whole lanes, and the capacity is twice the digest size. -/
def Obligations.RateRegionIsWholeLanes : Prop :=
  ∀ d : DigestSize, d.rate = 200 - 2 * d.bytes ∧ d.rate % 8 = 0 ∧ d.rate + capOf d.bytes = 200 ∧
    capOf d.bytes = 2 * d.bytes ∧ (d = .d32 → d.rate / 8 = 17) ∧ (d = .d64 → d.rate / 8 = 9) ∧
    ∀ j : StateAddr, j.val < d.rate ↔ (laneOf j).val < d.rate / 8

-- The Permutation Engine

/-- R10: complement and circular left rotation on lanes. -/
def Obligations.RotationIsCircular : Prop :=
  (∀ a : Lane, ~~~a = 0xFFFFFFFFFFFFFFFF ^^^ a) ∧
  (∀ v : Lane, rotl64 v 0 = v) ∧
  (∀ (v : Lane) (n : Nat), 1 ≤ n → n ≤ 63 →
    (rotl64 v n).toNat = ((v.toNat * 2 ^ n) % 2 ^ 64) ||| (v.toNat / 2 ^ (64 - n))) ∧
  (∀ (v : Lane) (n i : Nat), n ≤ 63 → i ≤ 63 → (rotl64 v n).getLsbD ((i + n) % 64) = v.getLsbD i)

/-- R92: THETA, its columns written out, and its two corner cases. -/
def Obligations.ThetaXorsTheNeighbourParities : Prop :=
  (∀ (a : Lanes) (x y : Fin 5),
    a.theta.get x y = a.get x y ^^^
      ((a.get (x + 4) 0 ^^^ a.get (x + 4) 1 ^^^ a.get (x + 4) 2 ^^^ a.get (x + 4) 3 ^^^ a.get (x + 4) 4) ^^^
       rotl64 (a.get (x + 1) 0 ^^^ a.get (x + 1) 1 ^^^ a.get (x + 1) 2 ^^^ a.get (x + 1) 3 ^^^ a.get (x + 1) 4) 1)) ∧
  Lanes.zero.theta = Lanes.zero ∧
  (∀ (a b : Lanes) (x : Fin 5), (∀ x' y, x' ≠ x → a.get x' y = b.get x' y) → a.thetaD x = b.thetaD x)

/-- R95, R96: RHO rotates each lane by the offset the generating walk gives its position; the walk meets every position
but (0, 0), which is not moved. -/
def Obligations.RhoRotatesByTheWalkOffsets : Prop :=
  (∀ a : Lanes, a.rho.get 0 0 = a.get 0 0) ∧
  (∀ (a : Lanes) (t : Nat), t < 24 →
    a.rho.get (rhoWalk t).1 (rhoWalk t).2 =
      rotl64 (a.get (rhoWalk t).1 (rhoWalk t).2) (((t + 1) * (t + 2) / 2) % 64)) ∧
  (∀ x y : Fin 5, ¬(x = 0 ∧ y = 0) → ∃ t, t < 24 ∧ rhoWalk t = (x, y)) ∧
  (∀ x y : Fin 5, rhoOff x y ≤ 63)

/-- R97, R98: PI moves whole lanes, in both forms of the formula and by both tables; only (0, 0) stays. -/
def Obligations.PiPermutesTheLanes : Prop :=
  (∀ (a : Lanes) (x y : Fin 5), a.pi.get y (2 * x + 3 * y) = a.get x y ∧ a.pi.get x y = a.get (x + 3 * y) x) ∧
  (∀ (a : Lanes) (j : Fin 25), ∃ i i', piSrc[j.val]? = some i ∧ piDst[j.val]? = some i' ∧
    a.pi.lane j = a.lane i ∧ a.pi.lane i' = a.lane j) ∧
  (∀ x y : Fin 5, (y = x ∧ 2 * x + 3 * y = y) ↔ (x = 0 ∧ y = 0)) ∧
  Function.Bijective Lanes.pi

/-- R99: CHI on each row, and its two corner cases. -/
def Obligations.ChiCombinesEachRow : Prop :=
  (∀ (a : Lanes) (x y : Fin 5),
    a.chi.get x y = a.get x y ^^^ ((0xFFFFFFFFFFFFFFFF ^^^ a.get (x + 1) y) &&& a.get (x + 2) y)) ∧
  (∀ (a : Lanes) (y : Fin 5), (∀ x, a.get x y = 0) → ∀ x, a.chi.get x y = 0) ∧
  (∀ (a : Lanes) (y : Fin 5), (∀ x, a.get x y = 0xFFFFFFFFFFFFFFFF) → ∀ x, a.chi.get x y = 0xFFFFFFFFFFFFFFFF)

/-- R100, R101: IOTA changes lane (0, 0) only, by the constant that the register of R101 generates. -/
def Obligations.IotaXorsTheGeneratedConstant : Prop :=
  (∀ (a : Lanes) (ir : Fin 24) (x y : Fin 5), ¬(x = 0 ∧ y = 0) → (a.iota ir).get x y = a.get x y) ∧
  (∀ (a : Lanes) (ir : Fin 24), (a.iota ir).get 0 0 = a.get 0 0 ^^^ rc ir) ∧
  (∀ (ir : Fin 24) (b : Nat), b < 64 →
    (rc ir).getLsbD b = (List.range 7).any fun j => b == 2 ^ j - 1 && rcBit (j + 7 * ir.val))

/-- R102, R103: the five steps in order make a round; the rounds 0 to 23, in this order, make KECCAK_F. -/
def Obligations.KeccakFRunsTheRoundsInOrder : Prop :=
  (∀ (a : Lanes) (ir : Fin 24), a.round ir = ((((a.theta).rho).pi).chi).iota ir) ∧
  (∀ a : Lanes, ∃ seq : Nat → Lanes, seq 0 = a ∧
    (∀ ir : Fin 24, seq (ir.val + 1) = (seq ir.val).round ir) ∧ seq 24 = a.keccakF)

/-- R104: the net effect of PERMUTE on the whole state. -/
def Obligations.PermuteAppliesKeccakFAndNothingElse : Prop :=
  ∀ s : State, permute s = { s with lanes := s.lanes.keccakF, rnd := 0 }

/-- The example of R103, vector V9: the first, second and last lane of the permuted zero state. -/
def Obligations.KeccakFOfTheZeroState : Prop :=
  Lanes.zero.keccakF.get 0 0 = 0xF1258F7940E1DDE7 ∧ Lanes.zero.keccakF.get 1 0 = 0x84D5CCF933C0478A ∧
  Lanes.zero.keccakF.get 4 4 = 0xEAF1FF7B5CECA249

/-- R106: the permutation is a bijection on 1600-bit states. -/
def Obligations.KeccakFIsABijection : Prop := Function.Bijective Lanes.keccakF

-- The commands, each by its own rule. Every clause gives the whole next state, so it is its own frame.

/-- R126: NOP in every state; only the response changes. -/
def Obligations.NopReportsTheStatus : Prop :=
  ∀ s, exec .nop s = .next { s with rsp := some (formatR s.err 0x00) }

/-- R127, R128: the two STARTs in every state, FAULT included. -/
def Obligations.StartsBeginAFreshInvocation : Prop :=
  ∀ s, exec .start256 s = .next { s with err := 0x00, lanes := .zero, dsz := 32, ptr := 0, phase := .absorb,
                                         rsp := some (formatR 0x00 0x00) } ∧
    exec .start512 s = .next { s with err := 0x00, lanes := .zero, dsz := 64, ptr := 0, phase := .absorb,
                                      rsp := some (formatR 0x00 0x00) } ∧
    ∀ t, exec .start256 s = .next t ∨ exec .start512 s = .next t → t.outputs.done = false ∧ t.outputs.fault = false

/-- R129: a START of another size, in every state. -/
def Obligations.StartOfAnotherSizeFaults : Prop :=
  ∀ (imm : Byte) (s : State), imm ≠ 0x20 → imm ≠ 0x40 →
    ∃ t, runCommand (formatC 0x01 imm) s = .next t ∧ t.outputs.fault = true ∧
      t = { s with err := 0x02, phase := .fault, rsp := some (formatR 0x02 0x00) }

/-- R130: ABSORB in each phase; in phase ABSORB inside a block and at its last byte. -/
def Obligations.AbsorbFollowsItsRule : Prop :=
  ∀ (imm : Byte) (s : State),
    (s.phase = .fault → exec (.absorb imm) s = .next { s with rsp := some (formatR s.err 0x00) }) ∧
    (s.phase = .idle ∨ s.phase = .squeeze ∨ s.phase = .done →
      exec (.absorb imm) s = .next { s with err := 0x03, phase := .fault, rsp := some (formatR 0x03 0x00) }) ∧
    (∀ (d : DigestSize) (p : StateAddr), s.phase = .absorb → s.err = 0x00 → s.dsz.toNat = d.bytes →
      p.val = s.ptr.toNat →
      (s.ptr.toNat < 200 - 2 * d.bytes - 1 →
        exec (.absorb imm) s = .next { s with lanes := s.lanes.setByte p (s.lanes.byte p ^^^ imm), ptr := s.ptr + 1,
                                              rsp := some (formatR 0x00 0x00) }) ∧
      (s.ptr.toNat = 200 - 2 * d.bytes - 1 →
        exec (.absorb imm) s = .next { s with lanes := (s.lanes.setByte p (s.lanes.byte p ^^^ imm)).keccakF, ptr := 0,
                                              rnd := 0, rsp := some (formatR 0x00 0x00) }))

/-- R153: FINAL in each phase; in phase ABSORB with the two padding bytes apart and on one byte. -/
def Obligations.FinalFollowsItsRule : Prop :=
  ∀ s : State,
    (s.phase = .fault → exec .final s = .next { s with rsp := some (formatR s.err 0x00) }) ∧
    (s.phase = .idle ∨ s.phase = .squeeze ∨ s.phase = .done →
      exec .final s = .next { s with err := 0x03, phase := .fault, rsp := some (formatR 0x03 0x00) }) ∧
    (∀ (d : DigestSize) (p e : StateAddr), s.phase = .absorb → s.err = 0x00 → s.dsz.toNat = d.bytes →
      p.val = s.ptr.toNat → e.val = 200 - 2 * d.bytes - 1 →
      (s.ptr.toNat < 200 - 2 * d.bytes - 1 →
        exec .final s = .next { s with
          lanes := ((s.lanes.setByte p (s.lanes.byte p ^^^ 0x06)).setByte e (s.lanes.byte e ^^^ 0x80)).keccakF,
          ptr := 0, phase := .squeeze, rnd := 0, rsp := some (formatR 0x00 0x00) }) ∧
      (s.ptr.toNat = 200 - 2 * d.bytes - 1 →
        exec .final s = .next { s with
          lanes := (s.lanes.setByte e (s.lanes.byte e ^^^ 0x86)).keccakF,
          ptr := 0, phase := .squeeze, rnd := 0, rsp := some (formatR 0x00 0x00) }))

/-- R131, R132: SQUEEZE in each phase; in phase SQUEEZE before and at the last digest byte. -/
def Obligations.SqueezeFollowsItsRule : Prop :=
  ∀ s : State,
    (s.phase = .fault → exec .squeeze s = .next { s with rsp := some (formatR s.err 0x00) }) ∧
    (s.phase = .done →
      exec .squeeze s = .next { s with err := 0x04, phase := .fault, rsp := some (formatR 0x04 0x00) }) ∧
    (s.phase = .idle ∨ s.phase = .absorb →
      exec .squeeze s = .next { s with err := 0x03, phase := .fault, rsp := some (formatR 0x03 0x00) }) ∧
    (∀ (d : DigestSize) (p : StateAddr), s.phase = .squeeze → s.err = 0x00 → s.dsz.toNat = d.bytes →
      p.val = s.ptr.toNat →
      (s.ptr.toNat < d.bytes - 1 →
        exec .squeeze s = .next { s with ptr := s.ptr + 1, rsp := some (formatR 0x00 (s.lanes.byte p)) }) ∧
      (s.ptr.toNat = d.bytes - 1 →
        exec .squeeze s = .next { s with lanes := .zero, ptr := 0, phase := .done,
                                         rsp := some (formatR 0x00 (s.lanes.byte p)) }))

/-- R74 (b), (c) with step 3 of R184: every other word outside the table, in every phase but FAULT. -/
def Obligations.IllegalWordsFault : Prop :=
  ∀ (w : Word) (s : State), s.phase ≠ .fault →
    ((opField w = 0x00 ∨ opField w = 0x03 ∨ opField w = 0x04) ∧ immField w ≠ 0x00) ∨ 0x05 ≤ (opField w).toNat →
    runCommand w s = .next { s with err := 0x01, phase := .fault, rsp := some (formatR 0x01 0x00) }

-- Frames by the bytes that are stored

/-- The store of an ABSORB inside a block goes to the byte that `ratePointer`, which ABSORB itself uses, gives, and every
other byte reads as before. -/
def Obligations.AbsorbStoresOneByte : Prop :=
  ∀ (imm : Byte) (s t : State) (d : DigestSize) (p : StateAddr), s.phase = .absorb →
    ratePointer s = .ok (d, p) → p ≠ d.lastRateByte → exec (.absorb imm) s = .next t →
    memRead p t = memRead p s ^^^ imm ∧ (∀ j, j ≠ p → memRead j t = memRead j s) ∧
    t.dsz = s.dsz ∧ t.phase = s.phase ∧ t.err = s.err ∧ t.rnd = s.rnd ∧ t.inputs = s.inputs

/-- The forms that store nothing: NOP, every command in phase FAULT but a START, every command that raises, and SQUEEZE
before the last byte. Every byte reads as before. -/
def Obligations.OtherFormsStoreNothing : Prop :=
  ∀ (w : Word) (s t : State) (j : StateAddr), runCommand w s = .next t →
    decode w = .instr .nop ∨ t.phase = .fault ∨ (decode w = .instr .squeeze ∧ t.phase = .squeeze) →
    memRead j t = memRead j s

-- Errors and the FAULT phase

/-- R185: in phase FAULT every word but a START's leaves everything and answers `{ERR, 0x00}`. -/
def Obligations.FaultPhaseIgnoresCommands : Prop :=
  ∀ (w : Word) (s : State), s.phase = .fault → opField w ≠ 0x01 →
    ∃ t, runCommand w s = .next t ∧ t = { s with rsp := some (formatR s.err 0x00) } ∧
      t.outputs.fault = true ∧ t.outputs.err = s.err

/-- The same over any sequence of words without a START: the first error is the one reported throughout (R185, R187). -/
def Obligations.FirstErrorIsReportedThroughout : Prop :=
  ∀ (ws : List Word) (s : State), s.phase = .fault → (∀ w ∈ ws, opField w ≠ 0x01) →
    ∃ u, issueAll ws s = some (u, List.replicate ws.length (formatR s.err 0x00)) ∧
      u.lanes = s.lanes ∧ u.dsz = s.dsz ∧ u.phase = .fault ∧ u.ptr = s.ptr ∧ u.err = s.err ∧ u.rnd = s.rnd

/-- R183: what a raise does, and that a command that ends in phase FAULT has no other effect. -/
def Obligations.ErrorsArePrecise : Prop :=
  (∀ (e : ErrorCode) (s : State),
    raiseError e s = { s with err := e.code, phase := .fault, rsp := some (formatR e.code 0x00) }) ∧
  (∀ (w : Word) (s t : State), runCommand w s = .next t → t.phase = .fault →
    t = { s with err := t.err, phase := .fault, rsp := some (formatR t.err 0x00) })

/-- R182: which command can raise what; PERMUTE and XORBYTE, and with them the steps they are made of, never raise. -/
def Obligations.CommandsRaiseOnlyTheirErrors : Prop :=
  (∀ (j : StateAddr) (v : Byte) (s : State), (permute s).err = s.err ∧ (permute s).phase = s.phase ∧
    (xorByte j v s).err = s.err ∧ (xorByte j v s).phase = s.phase) ∧
  ∀ (w : Word) (s t : State), runCommand w s = .next t →
    (∀ imm, decode w = .startBad imm → t.err = 0x02 ∧ t.phase = .fault) ∧
    (decode w = .instr .start256 ∨ decode w = .instr .start512 → t.err = 0x00) ∧
    (s.phase = .fault → opField w ≠ 0x01 → t.err = s.err ∧ t.phase = .fault) ∧
    (s.phase ≠ .fault → s.err = 0x00 →
      (decode w = .instr .nop → t.err = 0x00) ∧
      (∀ imm, decode w = .instr (.absorb imm) → t.err = 0x00 ∨ t.err = 0x03) ∧
      (decode w = .instr .final → t.err = 0x00 ∨ t.err = 0x03) ∧
      (decode w = .instr .squeeze → t.err = 0x00 ∨ t.err = 0x03 ∨ t.err = 0x04) ∧
      (∀ v, decode w = .illegal v → t.err = 0x01))

/-- R186: phase FAULT is left only by START256, START512 or a Reset event; START.BAD raises afresh. -/
def Obligations.OnlyStartOrResetLeavesFault : Prop :=
  (∀ s t : State, s.phase = .fault → step s = .next t → t.phase ≠ .fault →
    ∃ e rest, s.inputs = e :: rest ∧
      ((e = .command 0x0120 ∧ t.phase = .absorb ∧ t.err = 0 ∧ t.lanes = .zero) ∨
       (e = .command 0x0140 ∧ t.phase = .absorb ∧ t.err = 0 ∧ t.lanes = .zero) ∨
       ((e = .reset ∨ ∃ w, e = .resetDuring w) ∧ t.phase = .idle))) ∧
  (∀ (imm : Byte) (s : State), s.phase = .fault → imm ≠ 0x20 → imm ≠ 0x40 →
    ∃ t, runCommand (formatC 0x01 imm) s = .next t ∧ t.phase = .fault ∧ t.err = 0x02)

/-- R27: the encoding of PHASE, and who writes it; only the SQUEEZE of the last digest byte writes DONE. -/
def Obligations.PhaseIsWrittenAsStated : Prop :=
  Phase.code .idle = 0 ∧ Phase.code .absorb = 1 ∧ Phase.code .squeeze = 2 ∧ Phase.code .done = 3 ∧
  Phase.code .fault = 4 ∧ (∀ p : Phase, p.code.toNat ≤ 4) ∧ (∀ s : State, s.outputs.phase = s.phase.code) ∧
  ∀ s t : State, step s = .next t → t.phase ≠ s.phase →
    (t.phase = .idle ∧ ∃ e rest, s.inputs = e :: rest ∧ (e = .reset ∨ ∃ w, e = .resetDuring w)) ∨
    ∃ w rest, s.inputs = .command w :: rest ∧
      ((t.phase = .absorb ∧ (decode w = .instr .start256 ∨ decode w = .instr .start512)) ∨
       (t.phase = .squeeze ∧ s.phase = .absorb ∧ decode w = .instr .final) ∨
       (t.phase = .done ∧ s.phase = .squeeze ∧ decode w = .instr .squeeze ∧ s.ptr.toNat + 1 = s.dsz.toNat) ∨
       (t.phase = .fault ∧ t.err ≠ 0x00))

/-- R73: every command that executes gives one response, its status ERR after the command, its data 0x00 unless the
command is a SQUEEZE executed in phase SQUEEZE. -/
def Obligations.ResponseCarriesErrAndDigestByte : Prop :=
  (∀ status data : Byte, statusField (formatR status data) = status ∧ dataField (formatR status data) = data) ∧
  ∀ (w : Word) (s t : State), runCommand w s = .next t →
    ∃ r, t.rsp = some r ∧ statusField r = t.err ∧
      (dataField r ≠ 0x00 → decode w = .instr .squeeze ∧ s.phase = .squeeze) ∧
      (decode w = .instr .squeeze → s.phase = .squeeze → ∀ p : StateAddr, p.val = s.ptr.toNat →
        dataField r = s.lanes.byte p)

/-- R30: the status outputs are computed from the registers, `busy` from the command in progress. -/
def Obligations.StatusOutputsFollowTheRegisters : Prop :=
  (∀ s : State, (s.outputs.done = true ↔ s.phase.code = 3) ∧ (s.outputs.fault = true ↔ s.phase.code = 4)) ∧
  (∀ p : PortState, (p.outputs.busy = true ↔ ∃ j, p.job = some j) ∧ (p.outputs.done = true ↔ p.core.phase.code = 3) ∧
    (p.outputs.fault = true ↔ p.core.phase.code = 4) ∧ p.outputs.cmdReady = !p.outputs.busy)

-- Progress and invariants

/-- Every command word completes with a response in every state of R33, and the two STARTs and START.BAD in every state
at all (R221). -/
def Obligations.EveryCommandCompletes : Prop :=
  ∀ (w : Word) (s : State), s.Inv ∨ opField w = 0x01 → ∃ t r, runCommand w s = .next t ∧ t.rsp = some r

/-- R33 at reset. -/
def Obligations.InvariantHoldsAtReset : Prop := State.reset.Inv ∧ State.reset.outputs.busy = false

/-- R33: every step from a state that meets the invariants answers a state that meets them. -/
def Obligations.EveryStepKeepsTheInvariant : Prop :=
  ∀ s t : State, s.Inv → step s = .next t → t.Inv

/-- R33: every state reachable from reset by any sequence of commands and Reset events meets the invariants, and no run
from reset stops. -/
def Obligations.ReachableStatesMeetTheInvariants : Prop :=
  ∀ (events : List PortEvent) (k : Nat),
    ∃ t : State, Host.Core.run Sys2Proof.core k { State.reset with inputs := events } = .next t ∧
      t.Inv ∧ t.outputs.busy = false

/-- R28, R181: PTR never exceeds 135 and ERR never holds another value than 0x00 to 0x04. -/
def Obligations.PointerAndErrorStayInRange : Prop :=
  State.reset.Codes ∧ ∀ s t : State, s.Inv → s.Codes → step s = .next t → t.Codes

-- Isolation

/-- R25, R57: no response depends on a byte outside the digest window. -/
def Obligations.ResponsesDependOnTheDigestWindowOnly : Prop :=
  ∀ (w : Word) (s t s' t' : State), s.agreeBelow s.dsz.toNat t →
    runCommand w s = .next s' → runCommand w t = .next t' → s'.rsp = t'.rsp

/-- R134: the capacity bytes change only through the permutation, applied to unchanged capacity bytes, and through
zeroing. -/
def Obligations.CapacityChangesOnlyByPermuteOrZeroing : Prop :=
  ∀ (w : Word) (s t : State), s.Inv → runCommand w s = .next t →
    t.lanes = .zero ∨
    (∀ j : StateAddr, rateOf s.dsz.toNat ≤ j.val → t.lanes.byte j = s.lanes.byte j) ∨
    (∃ a : Lanes, t.lanes = a.keccakF ∧ ∀ j : StateAddr, rateOf s.dsz.toNat ≤ j.val → a.byte j = s.lanes.byte j)

/-- R127, R128, R169: after a START nothing depends on what was before it: the same words give the same responses and
the same registers from any two states whatever. -/
def Obligations.StartForgetsThePast : Prop :=
  ∀ (d : DigestSize) (ws : List Word) (s t : State),
    ∃ u v rs, issueAll (encode d.start :: ws) s = some (u, rs) ∧ issueAll (encode d.start :: ws) t = some (v, rs) ∧
      u.lanes = v.lanes ∧ u.dsz = v.dsz ∧ u.phase = v.phase ∧ u.ptr = v.ptr ∧ u.err = v.err

-- The reference functions and the invocation

/-- R150, R151: the padded message and the shape of its padding. -/
def Obligations.PaddingHasTheStatedShape : Prop :=
  ∀ (d : DigestSize) (m : List Byte),
    (pad m d.rate).length = (m.length / d.rate + 1) * d.rate ∧
    (pad m d.rate).take m.length = m ∧
    (m.length % d.rate ≤ d.rate - 2 → (pad m d.rate).drop m.length =
      0x06 :: (List.replicate (d.rate - m.length % d.rate - 2) 0x00 ++ [0x80])) ∧
    (m.length % d.rate = d.rate - 1 → (pad m d.rate).drop m.length = [0x86])

/-- R154: the state after FINAL equals ABSORB_ALL of the padded message, for every message and from every state. -/
def Obligations.InjectedPaddingEqualsAbsorbAll : Prop :=
  ∀ (d : DigestSize) (m : List Byte) (s : State),
    ∃ u rs, issueAll (encode d.start :: (absorbN m ++ [encode .final])) s = some (u, rs) ∧
      u.lanes = absorbAll (pad m d.rate) d.rate ∧ u.phase = .squeeze ∧ u.ptr = 0 ∧ u.err = 0x00 ∧ u.dsz = d.code

/-- R124, R169: the invocation of 43_public_hash.md computes SHA3_256 and SHA3_512 from any state whatever, with clean
responses, and ends in phase DONE with the state discarded. -/
def Obligations.InvocationComputesTheHash : Prop :=
  ∀ (m : List Byte) (s : State),
    (∃ u rs, issueAll (hash256Words m) s = some (u, rs) ∧ rs.length = m.length + 34 ∧ cleanResponses rs ∧
      (rs.drop (m.length + 2)).map dataField = sha3_256 m ∧
      u.phase = .done ∧ u.ptr = 0 ∧ u.err = 0x00 ∧ u.lanes = .zero ∧ u.dsz = 32) ∧
    (∃ u rs, issueAll (hash512Words m) s = some (u, rs) ∧ rs.length = m.length + 66 ∧ cleanResponses rs ∧
      (rs.drop (m.length + 2)).map dataField = sha3_512 m ∧
      u.phase = .done ∧ u.ptr = 0 ∧ u.err = 0x00 ∧ u.lanes = .zero ∧ u.dsz = 64)

/-- R170, R171: the host procedures: the two guards, which issue no command, and the digest written to the first bytes of
the caller's buffer and nothing beyond. A call that claims more bytes than its buffers have is left out: log entry 11. -/
def Obligations.HostProceduresReturnTheDigest : Prop :=
  ∀ (out input : List Byte) (cap l : Nat) (s : State),
    hash256 none cap input l s = .returned ⟨0x10, none, s⟩ ∧
    hash512 none cap input l s = .returned ⟨0x10, none, s⟩ ∧
    (cap < 32 → hash256 (some out) cap input l s = .returned ⟨0x11, some out, s⟩) ∧
    (cap < 64 → hash512 (some out) cap input l s = .returned ⟨0x11, some out, s⟩) ∧
    (32 ≤ cap → 32 ≤ out.length → l ≤ input.length →
      ∃ u, hash256 (some out) cap input l s = .returned ⟨0x00, some (sha3_256 (input.take l) ++ out.drop 32), u⟩ ∧
        u.phase = .done ∧ u.err = 0x00) ∧
    (64 ≤ cap → 64 ≤ out.length → l ≤ input.length →
      ∃ u, hash512 (some out) cap input l s = .returned ⟨0x00, some (sha3_512 (input.take l) ++ out.drop 64), u⟩ ∧
        u.phase = .done ∧ u.err = 0x00)

/-- The host's schedule and the port's function agree: as many steps as there are command words at the front of the
inputs leave the state that issuing them leaves (R58, R80; the inputs are the model's own, log entry 1). -/
def Obligations.StepsFollowTheIssuedCommands : Prop :=
  ∀ (ws : List Word) (rest : List PortEvent) (s u : State) (rs : List Word),
    s.inputs = ws.map .command ++ rest → issueAll ws s = some (u, rs) →
    Host.Core.run Sys2Proof.core ws.length s = .next { u with inputs := rest }

-- The pins

/-- R31, R80, R104: at the pins a command takes its acceptance and at most 25 further ticks, `busy` and without a
response until the last, whatever the host presents meanwhile, and ends in the very state the one-step command gives.
The ticks and their number are the model's choice (log entry 3). -/
def Obligations.PinsRefineTheCommand : Prop :=
  ∀ (w : Word) (s t : State), runCommand w s = .next t →
    ∃ n, 1 ≤ n ∧ n ≤ 25 ∧ ∀ later : List Pins, later.length = n → (∀ q ∈ later, q.rst = false) →
      ticks (⟨false, true, w⟩ :: later) ⟨s, none⟩ = .next ⟨t, none⟩ ∧
      ∀ m, m < n → ∃ p, ticks (⟨false, true, w⟩ :: later.take m) ⟨s, none⟩ = .next p ∧
        p.outputs.busy = true ∧ p.outputs.cmdReady = false ∧ p.outputs.rspValid = false

/-- R214: while a command is in progress a presented word has no effect: only `rst` matters. -/
def Obligations.BusyCoreAcceptsNoCommand : Prop :=
  ∀ (p : PortState) (pins pins' : Pins), p.outputs.cmdReady = false → pins.rst = pins'.rst → tick pins p = tick pins' p
end

