-- ==== Sys2Proof/Laws/Lanes.lean ====
section
/-! SUPPORT. The small lemmas of the lanes: reading a state built from a function, reading after a write, two states with
the same lanes, the sparse byte view. -/

namespace Sys2Proof.Machine

@[simp] theorem Row.lane_ofFn (f : Fin 5 → Lane) (x : Fin 5) : (Row.ofFn f).lane x = f x := by
  match x with
  | 0 | 1 | 2 | 3 | 4 => rfl

@[simp] theorem Lanes.get_ofFn (f : Fin 5 → Fin 5 → Lane) (x y : Fin 5) : (Lanes.ofFn f).get x y = f x y := by
  match y with
  | 0 => exact Row.lane_ofFn (f · 0) x
  | 1 => exact Row.lane_ofFn (f · 1) x
  | 2 => exact Row.lane_ofFn (f · 2) x
  | 3 => exact Row.lane_ofFn (f · 3) x
  | 4 => exact Row.lane_ofFn (f · 4) x

theorem Row.ext_lane {r r' : Row} (h : ∀ x, r.lane x = r'.lane x) : r = r' := by
  cases r
  cases r'
  exact Row.mk.injEq .. ▸ ⟨h 0, h 1, h 2, h 3, h 4⟩

/-- Two states with the same 25 lanes are the same state. -/
theorem Lanes.ext_get {a b : Lanes} (h : ∀ x y, a.get x y = b.get x y) : a = b := by
  have hrow : ∀ y, a.row y = b.row y := fun y => Row.ext_lane fun x => h x y
  cases a
  cases b
  exact Lanes.mk.injEq .. ▸ ⟨hrow 0, hrow 1, hrow 2, hrow 3, hrow 4⟩

@[simp] theorem Lanes.get_zero (x y : Fin 5) : Lanes.zero.get x y = 0 := Lanes.get_ofFn _ x y

@[simp] theorem Lanes.get_set (a : Lanes) (x y x' y' : Fin 5) (v : Lane) :
    (a.set x y v).get x' y' = if x' = x ∧ y' = y then v else a.get x' y' := Lanes.get_ofFn _ x' y'

/-- The lane coordinates of two lane indices are equal only if the indices are (R11). -/
theorem laneXY_inj {i j : Fin 25} : (laneX i = laneX j ∧ laneY i = laneY j) ↔ i = j := by
  simp only [laneX, laneY, Fin.ext_iff]
  omega

@[simp] theorem Lanes.lane_setLane (a : Lanes) (i j : Fin 25) (v : Lane) :
    (a.setLane i v).lane j = if j = i then v else a.lane j := by
  simp only [Lanes.lane, Lanes.setLane, Lanes.get_set, laneXY_inj]

@[simp] theorem laneX_laneIndex (x y : Fin 5) : laneX (laneIndex x y) = x := by
  simp only [laneX, laneIndex, Fin.ext_iff]
  omega

@[simp] theorem laneY_laneIndex (x y : Fin 5) : laneY (laneIndex x y) = y := by
  simp only [laneY, laneIndex, Fin.ext_iff]
  omega

/-- `LANE[x + 5y]` names `A[x][y]` (R22). -/
@[simp] theorem Lanes.lane_laneIndex (a : Lanes) (x y : Fin 5) : a.lane (laneIndex x y) = a.get x y := by
  simp [Lanes.lane]

/-- Two states with the same `LANE[0..24]` are the same state. -/
theorem Lanes.ext_lane {a b : Lanes} (h : ∀ i, a.lane i = b.lane i) : a = b :=
  Lanes.ext_get fun x y => by simpa using h (laneIndex x y)

@[simp] theorem Lanes.byte_zero (j : StateAddr) : Lanes.zero.byte j = 0 := by
  simp [Lanes.byte, Lanes.lane]

/-- The sparse byte view of any state is in canonical form. -/
theorem Lanes.cells_wf (a : Lanes) : Memory.wf a.cells := by
  refine ⟨?_, ?_⟩
  · refine List.Pairwise.filterMap _ ?_ (List.pairwise_lt_finRange 200)
    intro i j hij c hc d hd
    split at hc <;> split at hd <;> simp_all
    subst hc hd
    exact hij
  · intro c hc
    obtain ⟨j, -, hj⟩ := List.mem_filterMap.1 hc
    split at hj
    · simp at hj
    · next hne =>
      obtain rfl := Option.some.inj hj
      exact ⟨j.isLt, hne⟩

end Sys2Proof.Machine
end

