-- ==== Sys2Proof/Laws/State.lean ====
section
/-! SUPPORT. What each shared operation does to each field of State, one simp lemma per field per operation, so that no
later proof unfolds a record update. -/

namespace Sys2Proof.Machine

section respond
variable (v : Byte) (s : State)
@[simp] theorem respond_lanes : (respond v s).lanes = s.lanes := rfl
@[simp] theorem respond_dsz : (respond v s).dsz = s.dsz := rfl
@[simp] theorem respond_phase : (respond v s).phase = s.phase := rfl
@[simp] theorem respond_ptr : (respond v s).ptr = s.ptr := rfl
@[simp] theorem respond_err : (respond v s).err = s.err := rfl
@[simp] theorem respond_rnd : (respond v s).rnd = s.rnd := rfl
@[simp] theorem respond_rsp : (respond v s).rsp = some (formatR s.err v) := rfl
@[simp] theorem respond_inputs : (respond v s).inputs = s.inputs := rfl
end respond

section raiseError
variable (e : ErrorCode) (s : State)
@[simp] theorem raiseError_lanes : (raiseError e s).lanes = s.lanes := rfl
@[simp] theorem raiseError_dsz : (raiseError e s).dsz = s.dsz := rfl
@[simp] theorem raiseError_phase : (raiseError e s).phase = .fault := rfl
@[simp] theorem raiseError_ptr : (raiseError e s).ptr = s.ptr := rfl
@[simp] theorem raiseError_err : (raiseError e s).err = e.code := rfl
@[simp] theorem raiseError_rnd : (raiseError e s).rnd = s.rnd := rfl
@[simp] theorem raiseError_rsp : (raiseError e s).rsp = some (formatR e.code 0x00) := rfl
@[simp] theorem raiseError_inputs : (raiseError e s).inputs = s.inputs := rfl
end raiseError

section startInvocation
variable (d : DigestSize) (s : State)
@[simp] theorem startInvocation_lanes : (startInvocation d s).lanes = .zero := rfl
@[simp] theorem startInvocation_dsz : (startInvocation d s).dsz = d.code := rfl
@[simp] theorem startInvocation_phase : (startInvocation d s).phase = .absorb := rfl
@[simp] theorem startInvocation_ptr : (startInvocation d s).ptr = 0 := rfl
@[simp] theorem startInvocation_err : (startInvocation d s).err = 0 := rfl
@[simp] theorem startInvocation_rnd : (startInvocation d s).rnd = s.rnd := rfl
@[simp] theorem startInvocation_rsp : (startInvocation d s).rsp = some (formatR 0 0) := rfl
@[simp] theorem startInvocation_inputs : (startInvocation d s).inputs = s.inputs := rfl
end startInvocation

section xorByte
variable (j : StateAddr) (v : Byte) (s : State)
@[simp] theorem xorByte_lanes : (xorByte j v s).lanes = s.lanes.xorByte j v := rfl
@[simp] theorem xorByte_dsz : (xorByte j v s).dsz = s.dsz := rfl
@[simp] theorem xorByte_phase : (xorByte j v s).phase = s.phase := rfl
@[simp] theorem xorByte_ptr : (xorByte j v s).ptr = s.ptr := rfl
@[simp] theorem xorByte_err : (xorByte j v s).err = s.err := rfl
@[simp] theorem xorByte_rnd : (xorByte j v s).rnd = s.rnd := rfl
@[simp] theorem xorByte_rsp : (xorByte j v s).rsp = s.rsp := rfl
@[simp] theorem xorByte_inputs : (xorByte j v s).inputs = s.inputs := rfl
end xorByte

section memWrite
variable (j : StateAddr) (v : Byte) (s : State)
@[simp] theorem memWrite_lanes : (memWrite j v s).lanes = s.lanes.setByte j v := rfl
@[simp] theorem memWrite_dsz : (memWrite j v s).dsz = s.dsz := rfl
@[simp] theorem memWrite_phase : (memWrite j v s).phase = s.phase := rfl
@[simp] theorem memWrite_ptr : (memWrite j v s).ptr = s.ptr := rfl
@[simp] theorem memWrite_err : (memWrite j v s).err = s.err := rfl
@[simp] theorem memWrite_rnd : (memWrite j v s).rnd = s.rnd := rfl
end memWrite

section roundStep
variable (s : State) (ir : Fin 24)
@[simp] theorem roundStep_lanes : (roundStep s ir).lanes = s.lanes.round ir := rfl
@[simp] theorem roundStep_dsz : (roundStep s ir).dsz = s.dsz := rfl
@[simp] theorem roundStep_phase : (roundStep s ir).phase = s.phase := rfl
@[simp] theorem roundStep_ptr : (roundStep s ir).ptr = s.ptr := rfl
@[simp] theorem roundStep_err : (roundStep s ir).err = s.err := rfl
@[simp] theorem roundStep_rnd : (roundStep s ir).rnd = BitVec.ofNat 5 (ir.val + 1) := rfl
@[simp] theorem roundStep_rsp : (roundStep s ir).rsp = s.rsp := rfl
@[simp] theorem roundStep_inputs : (roundStep s ir).inputs = s.inputs := rfl
end roundStep

/-- A run of rounds changes the lanes by the rounds, RND, and nothing else. -/
theorem foldl_roundStep (l : List (Fin 24)) (s : State) :
    ∃ r, l.foldl roundStep s = { s with lanes := l.foldl Lanes.round s.lanes, rnd := r } := by
  induction l generalizing s with
  | nil => exact ⟨s.rnd, rfl⟩
  | cons ir l ih =>
    obtain ⟨r, hr⟩ := ih (roundStep s ir)
    exact ⟨r, hr⟩

section permute
variable (s : State)
@[simp] theorem permute_dsz : (permute s).dsz = s.dsz := by
  obtain ⟨r, hr⟩ := foldl_roundStep (List.finRange 24) { s with rnd := 0 }
  simp only [permute, hr]
@[simp] theorem permute_phase : (permute s).phase = s.phase := by
  obtain ⟨r, hr⟩ := foldl_roundStep (List.finRange 24) { s with rnd := 0 }
  simp only [permute, hr]
@[simp] theorem permute_ptr : (permute s).ptr = s.ptr := by
  obtain ⟨r, hr⟩ := foldl_roundStep (List.finRange 24) { s with rnd := 0 }
  simp only [permute, hr]
@[simp] theorem permute_err : (permute s).err = s.err := by
  obtain ⟨r, hr⟩ := foldl_roundStep (List.finRange 24) { s with rnd := 0 }
  simp only [permute, hr]
@[simp] theorem permute_rnd : (permute s).rnd = 0 := rfl
@[simp] theorem permute_rsp : (permute s).rsp = s.rsp := by
  obtain ⟨r, hr⟩ := foldl_roundStep (List.finRange 24) { s with rnd := 0 }
  simp only [permute, hr]
@[simp] theorem permute_inputs : (permute s).inputs = s.inputs := by
  obtain ⟨r, hr⟩ := foldl_roundStep (List.finRange 24) { s with rnd := 0 }
  simp only [permute, hr]
end permute

section closeBlock
variable (s : State)
@[simp] theorem closeBlock_lanes : (closeBlock s).lanes = s.lanes := rfl
@[simp] theorem closeBlock_dsz : (closeBlock s).dsz = s.dsz := rfl
@[simp] theorem closeBlock_phase : (closeBlock s).phase = s.phase := rfl
@[simp] theorem closeBlock_ptr : (closeBlock s).ptr = 0 := rfl
@[simp] theorem closeBlock_err : (closeBlock s).err = s.err := rfl
@[simp] theorem closeBlock_rnd : (closeBlock s).rnd = s.rnd := rfl
@[simp] theorem closeBlock_inputs : (closeBlock s).inputs = s.inputs := rfl
end closeBlock

section openSqueeze
variable (s : State)
@[simp] theorem openSqueeze_lanes : (openSqueeze s).lanes = s.lanes := rfl
@[simp] theorem openSqueeze_dsz : (openSqueeze s).dsz = s.dsz := rfl
@[simp] theorem openSqueeze_phase : (openSqueeze s).phase = .squeeze := rfl
@[simp] theorem openSqueeze_ptr : (openSqueeze s).ptr = 0 := rfl
@[simp] theorem openSqueeze_err : (openSqueeze s).err = s.err := rfl
@[simp] theorem openSqueeze_rnd : (openSqueeze s).rnd = s.rnd := rfl
@[simp] theorem openSqueeze_inputs : (openSqueeze s).inputs = s.inputs := rfl
end openSqueeze

section injectPadding
variable (d : DigestSize) (p : StateAddr) (s : State)
@[simp] theorem injectPadding_lanes :
    (injectPadding d p s).lanes = (s.lanes.xorByte p padStart).xorByte d.lastRateByte padFinal := rfl
@[simp] theorem injectPadding_dsz : (injectPadding d p s).dsz = s.dsz := rfl
@[simp] theorem injectPadding_phase : (injectPadding d p s).phase = s.phase := rfl
@[simp] theorem injectPadding_ptr : (injectPadding d p s).ptr = s.ptr := rfl
@[simp] theorem injectPadding_err : (injectPadding d p s).err = s.err := rfl
@[simp] theorem injectPadding_rnd : (injectPadding d p s).rnd = s.rnd := rfl
@[simp] theorem injectPadding_inputs : (injectPadding d p s).inputs = s.inputs := rfl
end injectPadding

section absorbByte
variable (d : DigestSize) (p : StateAddr) (v : Byte) (s : State)
@[simp] theorem absorbByte_dsz : (absorbByte d p v s).dsz = s.dsz := by
  unfold absorbByte; split <;> simp
@[simp] theorem absorbByte_phase : (absorbByte d p v s).phase = s.phase := by
  unfold absorbByte; split <;> simp
@[simp] theorem absorbByte_err : (absorbByte d p v s).err = s.err := by
  unfold absorbByte; split <;> simp
@[simp] theorem absorbByte_inputs : (absorbByte d p v s).inputs = s.inputs := by
  unfold absorbByte; split <;> simp
end absorbByte

section afterSqueeze
variable (d : DigestSize) (p : StateAddr) (s : State)
@[simp] theorem afterSqueeze_dsz : (afterSqueeze d p s).dsz = s.dsz := by
  unfold afterSqueeze; split <;> rfl
@[simp] theorem afterSqueeze_err : (afterSqueeze d p s).err = s.err := by
  unfold afterSqueeze; split <;> rfl
@[simp] theorem afterSqueeze_rnd : (afterSqueeze d p s).rnd = s.rnd := by
  unfold afterSqueeze; split <;> rfl
@[simp] theorem afterSqueeze_inputs : (afterSqueeze d p s).inputs = s.inputs := by
  unfold afterSqueeze; split <;> rfl
end afterSqueeze

section waitForHost
variable (s : State)
@[simp] theorem waitForHost_lanes : (waitForHost s).lanes = s.lanes := rfl
@[simp] theorem waitForHost_dsz : (waitForHost s).dsz = s.dsz := rfl
@[simp] theorem waitForHost_phase : (waitForHost s).phase = s.phase := rfl
@[simp] theorem waitForHost_ptr : (waitForHost s).ptr = s.ptr := rfl
@[simp] theorem waitForHost_err : (waitForHost s).err = s.err := rfl
@[simp] theorem waitForHost_rnd : (waitForHost s).rnd = s.rnd := rfl
@[simp] theorem waitForHost_rsp : (waitForHost s).rsp = none := rfl
@[simp] theorem waitForHost_inputs : (waitForHost s).inputs = s.inputs := rfl
end waitForHost

/-- The Reset event does not depend on the state but for the host's inputs to come. -/
theorem resetEvent_eq (s : State) : resetEvent s = { State.reset with inputs := s.inputs } := rfl

end Sys2Proof.Machine
end

