-- ==== Sys2Proof/Laws/Ops.lean ====
section
/-! SUPPORT. What the shared operations and the commands can do, said once: one inversion lemma each, which later proofs
cite instead of unfolding the operation. -/

namespace Sys2Proof.Machine

@[simp] theorem DigestSize.ofReg_code (d : DigestSize) : DigestSize.ofReg d.code = some d := by
  cases d <;> rfl

/-- DSZ stands for a digest size exactly when it holds that size's code. -/
theorem DigestSize.ofReg_eq_some {b : BitVec 8} {d : DigestSize} : DigestSize.ofReg b = some d ↔ b = d.code := by
  constructor
  · intro h
    unfold DigestSize.ofReg at h
    split at h
    · cases h; assumption
    · split at h
      · cases h; assumption
      · cases h
  · rintro rfl
    simp

/-- The pointer guard answers an address exactly when DSZ is legal and PTR lies below the limit. -/
theorem pointerBelow_eq_ok {limit : DigestSize → Nat} {bound : ∀ d, limit d ≤ 200} {s : State} {d : DigestSize}
    {p : StateAddr} :
    pointerBelow limit bound s = .ok (d, p) ↔ s.dsz = d.code ∧ p.val = s.ptr.toNat ∧ s.ptr.toNat < limit d := by
  unfold pointerBelow
  constructor
  · intro h
    split at h
    · cases h
    · next d' hd' =>
      split at h
      · next hlt =>
        cases h
        exact ⟨DigestSize.ofReg_eq_some.1 hd', rfl, hlt⟩
      · cases h
  · rintro ⟨hd, hp, hlt⟩
    have hreg : DigestSize.ofReg s.dsz = some d := DigestSize.ofReg_eq_some.2 hd
    simp only [hreg, hlt, dif_pos]
    congr 2
    exact Fin.ext hp.symm

theorem ratePointer_eq_ok {s : State} {d : DigestSize} {p : StateAddr} :
    ratePointer s = .ok (d, p) ↔ s.dsz = d.code ∧ p.val = s.ptr.toNat ∧ s.ptr.toNat < d.rate := pointerBelow_eq_ok

theorem digestPointer_eq_ok {s : State} {d : DigestSize} {p : StateAddr} :
    digestPointer s = .ok (d, p) ↔ s.dsz = d.code ∧ p.val = s.ptr.toNat ∧ s.ptr.toNat < d.bytes := pointerBelow_eq_ok

/-- In phase FAULT the outcome is the unchanged state with `{ERR, 0x00}`; in any other phase it is the command's. -/
theorem unlessFaulted_eq_next {s t : State} {k : Host.Outcome State Fault Refusal} :
    unlessFaulted s k = .next t ↔ (s.phase = .fault ∧ t = respond 0x00 s) ∨ (s.phase ≠ .fault ∧ k = .next t) := by
  unfold unlessFaulted
  split
  · next h => simp [h, eq_comm]
  · next h => simp [h]

/-- Everything ABSORB can do when it answers a next state. -/
theorem execAbsorb_cases {v : Byte} {s t : State} (h : execAbsorb v s = .next t) :
    (s.phase = .fault ∧ t = respond 0x00 s) ∨
    (s.phase ≠ .fault ∧ s.phase ≠ .absorb ∧ t = raiseError .phase s) ∨
    (s.phase = .absorb ∧ ∃ d p, ratePointer s = .ok (d, p) ∧ t = respond 0x00 (absorbByte d p v s)) := by
  obtain h | ⟨hf, h⟩ := unlessFaulted_eq_next.1 h
  · exact .inl h
  · split at h
    · next ha =>
      split at h
      · next d p hp =>
        cases h
        exact .inr (.inr ⟨ha, d, p, hp, rfl⟩)
      · cases h
    · next ha =>
      cases h
      exact .inr (.inl ⟨hf, ha, rfl⟩)

/-- Everything FINAL can do when it answers a next state. -/
theorem execFinal_cases {s t : State} (h : execFinal s = .next t) :
    (s.phase = .fault ∧ t = respond 0x00 s) ∨
    (s.phase ≠ .fault ∧ s.phase ≠ .absorb ∧ t = raiseError .phase s) ∨
    (s.phase = .absorb ∧ ∃ d p, ratePointer s = .ok (d, p) ∧
      t = respond 0x00 (openSqueeze (permute (injectPadding d p s)))) := by
  obtain h | ⟨hf, h⟩ := unlessFaulted_eq_next.1 h
  · exact .inl h
  · split at h
    · next ha =>
      split at h
      · next d p hp =>
        cases h
        exact .inr (.inr ⟨ha, d, p, hp, rfl⟩)
      · cases h
    · next ha =>
      cases h
      exact .inr (.inl ⟨hf, ha, rfl⟩)

/-- Everything SQUEEZE can do when it answers a next state. -/
theorem execSqueeze_cases {s t : State} (h : execSqueeze s = .next t) :
    (s.phase = .fault ∧ t = respond 0x00 s) ∨
    (s.phase = .done ∧ t = raiseError .overread s) ∨
    ((s.phase = .idle ∨ s.phase = .absorb) ∧ t = raiseError .phase s) ∨
    (s.phase = .squeeze ∧ ∃ d p, digestPointer s = .ok (d, p) ∧
      t = respond (memRead p s) (afterSqueeze d p s)) := by
  obtain h | ⟨hf, h⟩ := unlessFaulted_eq_next.1 h
  · exact .inl h
  · split at h
    · next hd =>
      cases h
      exact .inr (.inl ⟨hd, rfl⟩)
    · next hd =>
      split at h
      · next hs =>
        split at h
        · next d p hp =>
          cases h
          exact .inr (.inr (.inr ⟨hs, d, p, hp, rfl⟩))
        · cases h
      · next hs =>
        cases h
        refine .inr (.inr (.inl ⟨?_, rfl⟩))
        cases hp : s.phase <;> simp_all

/-- Everything ILLEGAL can do. -/
theorem execIllegal_cases {w : Word} {s t : State} (h : execIllegal w s = .next t) :
    (s.phase = .fault ∧ t = respond 0x00 s) ∨ (s.phase ≠ .fault ∧ t = raiseError .illegalCmd s) := by
  obtain h | ⟨hf, h⟩ := unlessFaulted_eq_next.1 h
  · exact .inl h
  · cases h
    exact .inr ⟨hf, rfl⟩

/-- Everything a command word can do when it answers a next state: one case per instruction and per class of words
outside the table. -/
theorem runCommand_cases {w : Word} {s t : State} (h : runCommand w s = .next t) :
    (∃ imm, decode w = .startBad imm ∧ t = raiseError .badSize { s with err := 0 }) ∨
    (decode w = .instr .nop ∧ t = respond 0x00 s) ∨
    (decode w = .instr .start256 ∧ t = startInvocation .d32 s) ∨
    (decode w = .instr .start512 ∧ t = startInvocation .d64 s) ∨
    (∃ v, decode w = .instr (.absorb v) ∧ execAbsorb v s = .next t) ∨
    (decode w = .instr .final ∧ execFinal s = .next t) ∨
    (decode w = .instr .squeeze ∧ execSqueeze s = .next t) ∨
    (∃ v, decode w = .illegal v ∧ execIllegal v s = .next t) := by
  unfold runCommand execCommand at h
  split at h
  · next i hi => cases i <;> simp_all [exec, execNop, execStart256, execStart512, eq_comm]
  · simp_all [execStartBad, eq_comm]
  · simp_all

/-- Everything a step can do when it answers a next state: the core waits, executes a command, or is reset. -/
theorem step_cases {s t : State} (h : step s = .next t) :
    (s.inputs = [] ∧ t = waitForHost s) ∨
    (∃ w rest, s.inputs = .command w :: rest ∧ runCommand w { s with inputs := rest } = .next t) ∨
    (∃ e rest, s.inputs = e :: rest ∧ (e = .reset ∨ ∃ w, e = .resetDuring w) ∧
      t = { State.reset with inputs := rest }) := by
  unfold step at h
  split at h
  · next hi => cases h; exact .inl ⟨hi, rfl⟩
  · next w rest hi => exact .inr (.inl ⟨w, rest, hi, h⟩)
  · next rest hi => cases h; exact .inr (.inr ⟨_, rest, hi, .inl rfl, rfl⟩)
  · next w rest hi => cases h; exact .inr (.inr ⟨_, rest, hi, .inr ⟨w, rfl⟩, rfl⟩)

end Sys2Proof.Machine
end

