-- ==== Sys2Proof/Laws/PerInstr.lean ====
section
/-! SUPPORT. Statements made per instruction. `TableRow`: the instruction's word belongs to the row of Table 30-2 that
carries its mnemonic (30_encoding.md R72). -/

namespace Sys2Proof.Laws.TableRow

/-- The encoded instruction is accepted by its own row of Table 30-2. -/
def Statement (i : Instr) : Prop := ∃ r ∈ opcodeTable, r.mnemonic = i.mnemonic ∧ r.accepts (encode i) = true

theorem nop : Statement .nop := by unfold Statement; decide

theorem start256 : Statement .start256 := by unfold Statement; decide

theorem start512 : Statement .start512 := by unfold Statement; decide

theorem absorb (imm : Byte) : Statement (.absorb imm) := by
  refine ⟨⟨"ABSORB", 0x0200, 0xFF00⟩, by decide, rfl, ?_⟩
  revert imm
  decide

theorem final : Statement .final := by unfold Statement; decide

theorem squeeze : Statement .squeeze := by unfold Statement; decide

end Sys2Proof.Laws.TableRow
end

