-- ==== Sys2Proof/Tests/Slice0.lean ====
section
/-! SUPPORT. The model's own tests. Expected results are those of spec/95_test_vectors.md (V<n>, P<n>) and of the examples
in the rules; and for each statement with hypotheses a witness that meets them. -/

-- The tests are elaborated one after another: elaborated side by side, each waits in a thread of its own for the kernel.
set_option Elab.async false

namespace Sys2Proof.Tests

open Sys2Proof.Machine

/-- A state `(PHASE, DSZ, PTR, ERR)` with the given lanes, as section 2.6 of the vectors writes states. -/
def sample (phase : Phase) (dsz ptr err : BitVec 8) (lanes : Lanes := .zero) (rsp : Option Word := none) : State :=
  { State.reset with phase := phase, dsz := dsz, ptr := ptr, err := err, lanes := lanes, rsp := rsp }

/-- Lanes that are zero but for the given ones. -/
def sparse (l : List ((Fin 5 × Fin 5) × Lane)) : Lanes := l.foldl (fun a e => a.set e.1.1 e.1.2 e.2) .zero

/-- A byte string written in hexadecimal as one number of `n` bytes, byte 0 first. -/
def hexBytes (n value : Nat) : List Byte := (List.range n).map fun i => BitVec.ofNat 8 (value / 256 ^ (n - 1 - i))

-- Well-formedness: each check refuses an ill-formed term

theorem test_wf_refuses_startBad_32 : (Command.startBad 0x20).wellFormed = false := by decide
theorem test_wf_refuses_startBad_64 : (Command.startBad 0x40).wellFormed = false := by decide
theorem test_wf_accepts_startBad_33 : (Command.startBad 0x21).wellFormed = true := by decide
theorem test_wf_refuses_illegal_nop : (Command.illegal 0x0000).wellFormed = false := by decide
theorem test_wf_refuses_illegal_start : (Command.illegal 0x0121).wellFormed = false := by decide
theorem test_wf_refuses_illegal_absorb : (Command.illegal 0x0261).wellFormed = false := by decide
theorem test_wf_accepts_illegal_0301 : (Command.illegal 0x0301).wellFormed = true := by decide
theorem test_wf_accepts_illegal_FFFF : (Command.illegal 0xFFFF).wellFormed = true := by decide

-- The parameters of Tables 00-1 and 00-2 (R6, R7)

theorem test_parameters : Config.bBits = Config.side * Config.side * Config.laneBits ∧
    Config.bBits = 8 * Config.bBytes ∧ Config.rounds = 24 ∧ 135 < 2 ^ Config.ptrBits ∧
    DigestSize.d32.rate = 136 ∧ DigestSize.d64.rate = 72 ∧ padStart ||| padFinal = 0x86 := by decide

-- Decoding, words written out from Table 30-2 bit by bit, and V38

theorem test_decode_nop : decode 0b0000000000000000#16 = .instr .nop := by decide
theorem test_decode_start256 : decode 0b0000000100100000#16 = .instr .start256 := by decide
theorem test_decode_start512 : decode 0b0000000101000000#16 = .instr .start512 := by decide
theorem test_decode_absorb_61 : decode 0b0000001001100001#16 = .instr (.absorb 0x61) := by decide
theorem test_decode_absorb_80 : decode 0b0000001010000000#16 = .instr (.absorb 0x80) := by decide
theorem test_decode_final : decode 0b0000001100000000#16 = .instr .final := by decide
theorem test_decode_squeeze : decode 0b0000010000000000#16 = .instr .squeeze := by decide
theorem test_decode_V38_startBad :
    decode 0x0100 = .startBad 0 ∧ decode 0x011F = .startBad 31 ∧ decode 0x0121 = .startBad 33 ∧
    decode 0x0180 = .startBad 128 ∧ decode 0x01FF = .startBad 255 := by decide
theorem test_decode_V38_illegal :
    decode 0x0001 = .illegal 0x0001 ∧ decode 0x00FF = .illegal 0x00FF ∧ decode 0x0301 = .illegal 0x0301 ∧
    decode 0x0420 = .illegal 0x0420 ∧ decode 0x0500 = .illegal 0x0500 ∧ decode 0x8000 = .illegal 0x8000 ∧
    decode 0xFFFF = .illegal 0xFFFF := by decide
theorem test_encode_words :
    encode .nop = 0x0000 ∧ encode .start256 = 0x0120 ∧ encode .start512 = 0x0140 ∧ encode (.absorb 0x61) = 0x0261 ∧
    encode .final = 0x0300 ∧ encode .squeeze = 0x0400 := by decide
theorem test_decodeTableWord : decodeTableWord 16 0x02FF = some (.absorb 0xFF) ∧ decodeTableWord 16 0x0301 = none := by
  decide
theorem test_formatR : formatR 0x03 0x42 = 0x0342 := by decide

-- The byte view: V11 and the example of R123

theorem test_V11_xorByte : Lanes.zero.xorByte 3 0x06 = sparse [((0, 0), 0x0000000006000000)] ∧
    Lanes.zero.xorByte 135 0x80 = sparse [((1, 3), 0x8000000000000000)] ∧
    Lanes.zero.xorByte 71 0x80 = sparse [((3, 1), 0x8000000000000000)] := by decide +kernel
theorem test_V11_addresses :
    (sparse [((1, 0), 0xAB)]).byte 8 = 0xAB ∧ (sparse [((0, 1), 0xAB)]).byte 40 = 0xAB ∧
    (sparse [((2, 3), 0xAB)]).byte 136 = 0xAB ∧ (sparse [((4, 1), 0xAB)]).byte 72 = 0xAB ∧
    (sparse [((4, 4), 0xAB00000000000000)]).byte 199 = 0xAB := by decide +kernel
theorem test_setByte_replaces : ((sparse [((0, 0), 0xFFFFFFFFFFFFFFFF)]).setByte 1 0x12).get 0 0 =
    0xFFFFFFFFFFFF12FF := by decide +kernel
theorem test_cells : (sparse [((1, 0), 0x0100)]).cells = [(9, 0x01)] := by decide +kernel

-- The step mappings: V1, V2, V3, V4, V5, V6, V6b

theorem test_V1_theta : (sparse [((0, 0), 1)]).theta =
    .ofFn fun x y => if x = 1 ∨ (x = 0 ∧ y = 0) then 1 else if x = 4 then 2 else 0 := by decide +kernel
theorem test_V2_theta_wrap : (sparse [((2, 3), 0x8000000000000000)]).theta =
    .ofFn fun x y => if x = 1 then 1 else if x = 3 ∨ (x = 2 ∧ y = 3) then 0x8000000000000000 else 0 := by
  decide +kernel
theorem test_V3_rho : (Lanes.ofFn fun _ _ => 1).rho =
    ⟨⟨0x0000000000000001, 0x0000000000000002, 0x4000000000000000, 0x0000000010000000, 0x0000000008000000⟩,
     ⟨0x0000001000000000, 0x0000100000000000, 0x0000000000000040, 0x0080000000000000, 0x0000000000100000⟩,
     ⟨0x0000000000000008, 0x0000000000000400, 0x0000080000000000, 0x0000000002000000, 0x0000008000000000⟩,
     ⟨0x0000020000000000, 0x0000200000000000, 0x0000000000008000, 0x0000000000200000, 0x0000000000000100⟩,
     ⟨0x0000000000040000, 0x0000000000000004, 0x2000000000000000, 0x0100000000000000, 0x0000000000004000⟩⟩ := by
  decide +kernel
theorem test_V4_rho_wrap : ((Lanes.ofFn fun _ _ => 0x8000000000000001).rho).get 1 0 = 3 ∧
    ((Lanes.ofFn fun _ _ => 0x8000000000000001).rho).get 2 4 = 0x3000000000000000 := by decide +kernel
theorem test_V5_pi : (Lanes.ofFn fun x y => BitVec.ofNat 64 (x.val + 5 * y.val)).pi =
    ⟨⟨0, 6, 12, 18, 24⟩, ⟨3, 9, 10, 16, 22⟩, ⟨1, 7, 13, 19, 20⟩, ⟨4, 5, 11, 17, 23⟩, ⟨2, 8, 14, 15, 21⟩⟩ := by
  decide +kernel
theorem test_V6_chi :
    (sparse [((0, 0), 1), ((1, 0), 3), ((2, 0), 5), ((3, 0), 0xF0), ((4, 0), 0xFFFFFFFFFFFFFFFF)]).chi =
    sparse [((0, 0), 5), ((1, 0), 0xF3), ((2, 0), 0xFFFFFFFFFFFFFF0A), ((3, 0), 0xF0),
      ((4, 0), 0xFFFFFFFFFFFFFFFD)] := by decide +kernel
theorem test_V6b_iota : Lanes.zero.iota 0 = sparse [((0, 0), 1)] ∧ Lanes.zero.iota 1 = sparse [((0, 0), 0x8082)] ∧
    Lanes.zero.iota 23 = sparse [((0, 0), 0x8000000080008008)] := by decide +kernel

-- Rounds and the permutation: V7, V8, V9

theorem test_V7_two_rounds : (Lanes.zero.round 0).round 1 =
    ⟨⟨0x0000000000008083, 0x0000100000000000, 0x0000000000008000, 0x0000000000000001, 0x0000100000008000⟩,
     ⟨0x0000000000000000, 0x0000200000200000, 0x0000000000000000, 0x0000200000000000, 0x0000000000200000⟩,
     ⟨0x0000000000000002, 0x0000000000000200, 0x0000000000000000, 0x0000000000000202, 0x0000000000000000⟩,
     ⟨0x0000000010000400, 0x0000000000000000, 0x0000000000000400, 0x0000000010000000, 0x0000000000000000⟩,
     ⟨0x0000010000000000, 0x0000000000000000, 0x0000010000000004, 0x0000000000000000, 0x0000000000000004⟩⟩ := by
  decide +kernel
theorem test_V8_three_rounds : (((Lanes.zero.round 0).round 1).round 2).get 3 1 = 0x31953040D0600010 := by
  decide +kernel
theorem test_V9_keccakF : Lanes.zero.keccakF =
    ⟨⟨0xF1258F7940E1DDE7, 0x84D5CCF933C0478A, 0xD598261EA65AA9EE, 0xBD1547306F80494D, 0x8B284E056253D057⟩,
     ⟨0xFF97A42D7F8E6FD4, 0x90FEE5A0A44647C4, 0x8C5BDA0CD6192E76, 0xAD30A6F71B19059C, 0x30935AB7D08FFC64⟩,
     ⟨0xEB5AA93F2317D635, 0xA9A6E6260D712103, 0x81A57C16DBCF555F, 0x43B831CD0347C826, 0x01F22F1A11A5569F⟩,
     ⟨0x05E5635A21D9AE61, 0x64BEFEF28CC970F2, 0x613670957BC46611, 0xB87C5A554FD00ECB, 0x8C3EE88A1CCF32C8⟩,
     ⟨0x940C7922AE3A2614, 0x1841F924A2C509E4, 0x16F53526E70465C2, 0x75F644E97F30A13B, 0xEAF1FF7B5CECA249⟩⟩ := by
  decide +kernel

-- The generators of R96 and R101 give the tables

theorem test_rho_generator : ∀ t, t < 24 → rhoOff (rhoWalk t).1 (rhoWalk t).2 = rhoWalkOffset t := by decide
theorem test_rc_generator : rcBit 0 = true ∧ rcStep 0x80 = 0x71 ∧ rcRegister 8 = 0x71 := by decide

-- The reference functions: E3 to E5, V12, V14, V15, V22

theorem test_E3_paddedLength : (List.map (fun l => paddedLength l 136) [0, 3, 134, 135, 136, 137, 271, 272]) =
    [136, 136, 136, 136, 272, 272, 272, 408] := by decide
theorem test_E4_pad_empty : pad [] 72 = 0x06 :: (List.replicate 70 0x00 ++ [0x80]) := by decide +kernel
theorem test_E5_pad_coincide : pad (List.replicate 71 0x11) 72 = List.replicate 71 0x11 ++ [0x86] := by
  decide +kernel
theorem test_V12_sha3_256_empty : sha3_256 [] =
    hexBytes 32 0xA7FFC6F8BF1ED76651C14756A061D662F580FF4DE43B49FA82D80A4B80F8434A := by decide +kernel
theorem test_V14_sha3_256_abc : sha3_256 [0x61, 0x62, 0x63] =
    hexBytes 32 0x3A985DA74FE225B2045C172D6BD390BD855F086E3E9D525B46BFE24511431532 := by decide +kernel
theorem test_V15_sha3_512_abc : sha3_512 [0x61, 0x62, 0x63] =
    hexBytes 64 0xB751850B1A57168A5693CD924B6B096E08F621827444F70D884F5D0240D2712E10E116E9192AF3C91A7EC57647E3934057340B4CF408D5A56592F8274EEC53F0 := by
  decide +kernel
theorem test_V22_sha3_512_block : sha3_512 ((List.range 72).map fun i => BitVec.ofNat 8 i) =
    hexBytes 64 0x5D63F2BBE971A983AC6847480106E4E1264EE3A0BEFD79954914E1D86E795B2E18238F12FC5E46CB9CC78EFDEC610A93647CC04E1C23D8CAAA6A58C21DD26C07 := by
  decide +kernel

-- The commands, one step each: V39 to V49

theorem test_V39_nop : nextOf (exec .nop (sample .fault 32 5 0x03)) =
    some (sample .fault 32 5 0x03 .zero (some 0x0300)) := by decide +kernel
theorem test_V40_start256 : nextOf (exec .start256 (sample .squeeze 64 9 0 (.ofFn fun _ _ => 7))) =
    some (sample .absorb 32 0 0 .zero (some 0x0000)) := by decide +kernel
theorem test_V41_start512 : nextOf (exec .start512 State.reset) =
    some (sample .absorb 64 0 0 .zero (some 0x0000)) := by decide +kernel
theorem test_V42_startBad : nextOf (runCommand 0x0110 (sample .absorb 64 1 0 (sparse [((0, 0), 0xAA)]))) =
    some (sample .fault 64 1 0x02 (sparse [((0, 0), 0xAA)]) (some 0x0200)) := by decide +kernel
theorem test_V42_startBad_in_fault : nextOf (runCommand 0x01FF (sample .fault 32 0 0x03)) =
    some (sample .fault 32 0 0x02 .zero (some 0x0200)) := by decide +kernel
theorem test_V43_absorb : nextOf (exec (.absorb 0x63) (sample .absorb 32 2 0 (sparse [((0, 0), 0x6261)]))) =
    some (sample .absorb 32 3 0 (sparse [((0, 0), 0x636261)]) (some 0x0000)) := by decide +kernel
theorem test_V47_absorb_completes_block : nextOf (exec (.absorb 0x00) (sample .absorb 64 71 0)) =
    some (sample .absorb 64 0 0 Lanes.zero.keccakF (some 0x0000)) := by decide +kernel
theorem test_V45_final : (nextOf (exec .final (sample .absorb 32 3 0 (sparse [((0, 0), 0x636261)])))).map
    (fun t => (t.phase, t.ptr, t.rsp, t.lanes.get 0 0, t.lanes.get 4 4)) =
    some (.squeeze, 0, some 0x0000, 0xB225E24FA75D983A, 0xB5D89C9E96E91041) := by decide +kernel
theorem test_V46_final_coincide : injectPadding .d32 135 (sample .absorb 32 135 0) =
    sample .absorb 32 135 0 (sparse [((1, 3), 0x8600000000000000)]) := by decide +kernel
theorem test_V48_squeeze : nextOf (exec .squeeze (sample .squeeze 32 1 0 (sparse [((0, 0), 0x66D71EBFF8C6FFA7)]))) =
    some (sample .squeeze 32 2 0 (sparse [((0, 0), 0x66D71EBFF8C6FFA7)]) (some 0x00FF)) := by decide +kernel
theorem test_V48_squeeze_last : nextOf (exec .squeeze (sample .squeeze 32 31 0 (sparse [((3, 0), 0x4A00000000000000)]))) =
    some (sample .done 32 0 0 .zero (some 0x004A)) := by decide +kernel
theorem test_V49_squeeze_overread : nextOf (exec .squeeze (sample .done 32 0 0)) =
    some (sample .fault 32 0 0x04 .zero (some 0x0400)) := by decide +kernel

-- Errors, waiting and reset: V50, V51, V53, V56, V57, V60

theorem test_V50_absorb_in_idle : nextOf (exec (.absorb 0x61) State.reset) =
    some (sample .fault 32 0 0x03 .zero (some 0x0300)) := by decide +kernel
theorem test_V51_final_in_idle : nextOf (exec .final State.reset) =
    some (sample .fault 32 0 0x03 .zero (some 0x0300)) := by decide +kernel
theorem test_V53_squeeze_in_absorb : nextOf (exec .squeeze (sample .absorb 32 0 0)) =
    some (sample .fault 32 0 0x03 .zero (some 0x0300)) := by decide +kernel
theorem test_V56_illegal_in_idle : nextOf (runCommand 0x0001 State.reset) =
    some (sample .fault 32 0 0x01 .zero (some 0x0100)) := by decide +kernel
theorem test_V57_illegal_in_fault : nextOf (runCommand 0x0500 (sample .fault 32 0 0x02)) =
    some (sample .fault 32 0 0x02 .zero (some 0x0200)) := by decide +kernel
theorem test_V60_reset_during_a_command :
    nextOf (step { sample .absorb 32 135 0 with inputs := [.resetDuring 0x0200, .reset] }) =
    some { State.reset with inputs := [.reset] } := by decide +kernel
theorem test_fetch_word : nextOf (step (State.reset.withFetchWord 16 0x0120)) =
    some (sample .absorb 32 0 0 .zero (some 0x0000)) := by decide +kernel

-- The pins: the last round of ABSORB number 72 with DSZ = 64 ends the command; rst cuts a permutation

theorem test_tick_last_round :
    (match tick ⟨false, true, 0x0400⟩ ⟨{ sample .absorb 64 71 0 with rnd := 23 }, some (.permuting .absorb)⟩ with
     | .next p => some (p.job, p.core.rnd, p.core.ptr, p.core.rsp, p.core.lanes)
     | .fault _ => none
     | .refused _ => none) = some (none, 0, 0, some 0x0000, Lanes.zero.round 23) := by decide +kernel
theorem test_tick_reset_in_permutation :
    (match tick ⟨true, false, 0⟩ ⟨{ sample .absorb 64 71 0 with rnd := 12 }, some (.permuting .absorb)⟩ with
     | .next p => some p
     | .fault _ => none
     | .refused _ => none) = some ⟨State.reset, none⟩ := by decide +kernel

-- Host procedures (V59) and notation (R77, R78)

theorem test_V59_host_guards : hash256 none 32 [] 0 State.reset = .returned ⟨0x10, none, State.reset⟩ ∧
    hash256 (some []) 31 [] 0 State.reset = .returned ⟨0x11, some [], State.reset⟩ ∧
    hash512 (some []) 63 [] 0 State.reset = .returned ⟨0x11, some [], State.reset⟩ := by decide +kernel
theorem test_listing : listingLine 0x0261 = some "0x0261  ABSORB 0x61" := by decide +kernel
theorem test_hash256Words_abc : (absorbS "abc").map (fun ws => 0x0120 :: (ws ++ 0x0300 :: squeezeN 32)) =
    some (hash256Words [0x61, 0x62, 0x63]) := by decide +kernel

-- Witnesses: for each statement with hypotheses, states and operands that meet them

theorem witness_ResetEventGivesTheResetState :
    ({ sample .squeeze 64 17 0 with inputs := [.reset] } : State).inputs = [PortEvent.reset] ∧
    (⟨true, true, 0x0400⟩ : Pins).rst = true := by decide
theorem witness_ResetDuringACommandDiscardsIt :
    ({ sample .absorb 32 135 0 with inputs := [.resetDuring 0x0200] } : State).inputs = [PortEvent.resetDuring 0x0200] ∧
    (⟨true, false, 0⟩ : Pins).rst = true ∧ (⟨State.reset, some (.permuting .final)⟩ : PortState).busy = true := by decide
theorem witness_StepRunsTheDecodedCommand :
    (State.reset.withFetchWord 16 0x0261).inputs = [PortEvent.command 0x0261] ∧ decode 0x0261 = .instr (.absorb 0x61) ∧
    decode 0x0121 = .startBad 33 ∧ decode 0x0301 = .illegal 0x0301 := by decide
theorem witness_CoreWaitsForTheHost : State.reset.inputs = [] := rfl
theorem witness_DecodeAndEncodeAreInverse : (Command.startBad 0xFF).wellFormed = true ∧
    (Command.illegal 0x0001).wellFormed = true ∧ (Instr.absorb 0xFF).wellFormed = true := by decide
theorem witness_TableRowsAreDisjointAndSelect : (⟨"ABSORB", 0x0200, 0xFF00⟩ : OpcodeRow) ∈ opcodeTable ∧
    (⟨"ABSORB", 0x0200, 0xFF00⟩ : OpcodeRow).accepts 0x02FF = true ∧ decode 0x02FF = .instr (.absorb 0xFF) := by decide
theorem witness_ByteViewAndLanesAreOneState :
    (7 : Nat) < 8 ∧ ((199 : StateAddr).val = 8 * ((4 : Fin 5).val + 5 * (4 : Fin 5).val) + 7) := by decide
theorem witness_RotationIsCircular : (1 : Nat) ≤ 63 ∧ (63 : Nat) ≤ 63 ∧ (0 : Nat) ≤ 63 := by decide
theorem witness_ThetaXorsTheNeighbourParities :
    ∀ x y : Fin 5, x ≠ 2 → (sparse [((2, 0), 1)]).get x y = Lanes.zero.get x y := by decide +kernel
theorem witness_RhoRotatesByTheWalkOffsets : (23 : Nat) < 24 ∧ ¬((4 : Fin 5) = 0 ∧ (0 : Fin 5) = 0) := by decide
theorem witness_ChiCombinesEachRow : (∀ x, Lanes.zero.get x 4 = 0) ∧
    (∀ x, (Lanes.ofFn fun _ _ => 0xFFFFFFFFFFFFFFFF).get x 0 = 0xFFFFFFFFFFFFFFFF) := by decide +kernel
theorem witness_IotaXorsTheGeneratedConstant : ¬((0 : Fin 5) = 0 ∧ (1 : Fin 5) = 0) ∧ (63 : Nat) < 64 := by decide
theorem witness_StartOfAnotherSizeFaults : (0x00 : Byte) ≠ 0x20 ∧ (0xFF : Byte) ≠ 0x40 ∧ (0x21 : Byte) ≠ 0x20 := by decide
theorem witness_AbsorbFollowsItsRule_inside : (sample .absorb 32 134 0).phase = .absorb ∧
    (sample .absorb 32 134 0).err = 0 ∧ (sample .absorb 32 134 0).dsz.toNat = DigestSize.d32.bytes ∧
    (134 : StateAddr).val = (sample .absorb 32 134 0).ptr.toNat ∧
    (sample .absorb 32 134 0).ptr.toNat < 200 - 2 * DigestSize.d32.bytes - 1 := by decide
theorem witness_AbsorbFollowsItsRule_last : (sample .absorb 64 71 0).phase = .absorb ∧
    (sample .absorb 64 71 0).err = 0 ∧ (sample .absorb 64 71 0).dsz.toNat = DigestSize.d64.bytes ∧
    (71 : StateAddr).val = (sample .absorb 64 71 0).ptr.toNat ∧
    (sample .absorb 64 71 0).ptr.toNat = 200 - 2 * DigestSize.d64.bytes - 1 := by decide
theorem witness_AbsorbFollowsItsRule_errors : (sample .fault 32 5 0x03).phase = .fault ∧
    (sample .idle 32 0 0).phase = .idle ∧ (sample .squeeze 32 31 0).phase = .squeeze ∧
    (sample .done 64 0 0).phase = .done := by decide
theorem witness_FinalFollowsItsRule_apart : (sample .absorb 64 0 0).phase = .absorb ∧ (sample .absorb 64 0 0).err = 0 ∧
    (sample .absorb 64 0 0).dsz.toNat = DigestSize.d64.bytes ∧ (0 : StateAddr).val = (sample .absorb 64 0 0).ptr.toNat ∧
    (71 : StateAddr).val = 200 - 2 * DigestSize.d64.bytes - 1 ∧
    (sample .absorb 64 0 0).ptr.toNat < 200 - 2 * DigestSize.d64.bytes - 1 := by decide
theorem witness_FinalFollowsItsRule_coincide : (sample .absorb 32 135 0).phase = .absorb ∧
    (sample .absorb 32 135 0).err = 0 ∧ (sample .absorb 32 135 0).dsz.toNat = DigestSize.d32.bytes ∧
    (135 : StateAddr).val = (sample .absorb 32 135 0).ptr.toNat ∧
    (135 : StateAddr).val = 200 - 2 * DigestSize.d32.bytes - 1 ∧
    (sample .absorb 32 135 0).ptr.toNat = 200 - 2 * DigestSize.d32.bytes - 1 := by decide
theorem witness_SqueezeFollowsItsRule_before : (sample .squeeze 64 62 0).phase = .squeeze ∧
    (sample .squeeze 64 62 0).err = 0 ∧ (sample .squeeze 64 62 0).dsz.toNat = DigestSize.d64.bytes ∧
    (62 : StateAddr).val = (sample .squeeze 64 62 0).ptr.toNat ∧
    (sample .squeeze 64 62 0).ptr.toNat < DigestSize.d64.bytes - 1 := by decide
theorem witness_SqueezeFollowsItsRule_last : (sample .squeeze 32 31 0).phase = .squeeze ∧
    (sample .squeeze 32 31 0).err = 0 ∧ (sample .squeeze 32 31 0).dsz.toNat = DigestSize.d32.bytes ∧
    (31 : StateAddr).val = (sample .squeeze 32 31 0).ptr.toNat ∧
    (sample .squeeze 32 31 0).ptr.toNat = DigestSize.d32.bytes - 1 := by decide
theorem witness_IllegalWordsFault : State.reset.phase ≠ .fault ∧ opField 0x04FF = 0x04 ∧ immField 0x04FF ≠ 0x00 ∧
    0x05 ≤ (opField 0x0500).toNat ∧ 0x05 ≤ (opField 0xFFFF).toNat := by decide
theorem witness_AbsorbStoresOneByte : ratePointer (sample .absorb 32 134 0) = .ok (.d32, 134) ∧
    (134 : StateAddr) ≠ DigestSize.d32.lastRateByte ∧
    ∃ t, exec (.absorb 0x61) (sample .absorb 32 134 0) = .next t := ⟨rfl, by decide, _, rfl⟩
theorem witness_OtherFormsStoreNothing :
    (∃ t, runCommand 0x0000 State.reset = .next t) ∧ (∃ t, runCommand 0x0261 State.reset = .next t ∧ t.phase = .fault) ∧
    (∃ t, runCommand 0x0400 (sample .squeeze 32 30 0) = .next t ∧ t.phase = .squeeze) :=
  ⟨⟨_, rfl⟩, ⟨_, rfl, rfl⟩, ⟨_, rfl, rfl⟩⟩
theorem witness_FaultPhaseIgnoresCommands : (sample .fault 32 0 0x04).phase = .fault ∧ opField 0x0400 ≠ 0x01 := by decide
theorem witness_FirstErrorIsReportedThroughout : (sample .fault 32 0 0x04).phase = .fault ∧
    ∀ w ∈ ([0x0000, 0x0500, 0x0300] : List Word), opField w ≠ 0x01 := by
  refine ⟨rfl, fun w hw => ?_⟩
  fin_cases hw <;> decide
theorem witness_ErrorsArePrecise :
    ∃ t, runCommand 0x0300 (sample .squeeze 64 63 0) = .next t ∧ t.phase = .fault ∧ t.err = 0x03 := ⟨_, rfl, rfl, rfl⟩
theorem witness_CommandsRaiseOnlyTheirErrors :
    (∃ t, runCommand 0x0400 (sample .done 64 0 0) = .next t ∧ t.err = 0x04) ∧ (sample .done 64 0 0).phase ≠ .fault ∧
    (∃ t, runCommand 0x0122 (sample .fault 64 0 0x03) = .next t ∧ t.err = 0x02) ∧
    (∃ t, runCommand 0x0300 (sample .fault 64 0 0x03) = .next t ∧ t.err = 0x03) :=
  ⟨⟨_, rfl, rfl⟩, by decide, ⟨_, rfl, rfl⟩, ⟨_, rfl, rfl⟩⟩
theorem witness_OnlyStartOrResetLeavesFault :
    (∃ t, step { sample .fault 32 5 0x03 with inputs := [.command 0x0140] } = .next t ∧ t.phase ≠ .fault) ∧
    (∃ t, step { sample .fault 32 5 0x03 with inputs := [.reset] } = .next t ∧ t.phase ≠ .fault) :=
  ⟨⟨_, rfl, by decide⟩, ⟨_, rfl, by decide⟩⟩
theorem witness_PhaseIsWrittenAsStated :
    (∃ t, step { sample .squeeze 32 31 0 with inputs := [.command 0x0400] } = .next t ∧ t.phase = .done) ∧
    (∃ t, step { sample .absorb 32 0 0 with inputs := [.command 0x0300] } = .next t ∧ t.phase = .squeeze) ∧
    (∃ t, step { sample .done 32 0 0 with inputs := [.resetDuring 0x0120] } = .next t ∧ t.phase = .idle) :=
  ⟨⟨_, rfl, rfl⟩, ⟨_, rfl, rfl⟩, ⟨_, rfl, rfl⟩⟩
theorem witness_ResponseCarriesErrAndDigestByte :
    ∃ t, runCommand 0x0400 (sample .squeeze 64 63 0 (.ofFn fun _ _ => 0x2600000000000000)) = .next t ∧
      t.rsp = some 0x0026 := ⟨_, rfl, by decide +kernel⟩
theorem witness_EveryCommandCompletes : (sample .absorb 32 135 0).Inv ∧ (sample .squeeze 64 63 0).Inv ∧
    opField 0x01FF = 0x01 := by decide +kernel
theorem witness_EveryStepKeepsTheInvariant :
    (sample .absorb 64 71 0).Inv ∧ ∃ t, step { sample .absorb 64 71 0 with inputs := [.command 0x0247] } = .next t :=
  ⟨by decide +kernel, _, rfl⟩
theorem witness_PointerAndErrorStayInRange : (sample .fault 32 135 0x04).Inv ∧ (sample .fault 32 135 0x04).Codes ∧
    ∃ t, step { sample .fault 32 135 0x04 with inputs := [.command 0x0400] } = .next t :=
  ⟨by decide +kernel, by decide, _, rfl⟩
theorem witness_ResponsesDependOnTheDigestWindowOnly :
    (sample .squeeze 32 0 0 (sparse [((4, 4), 1)])).agreeBelow 32 (sample .squeeze 32 0 0) ∧
    (∃ t, runCommand 0x0400 (sample .squeeze 32 0 0 (sparse [((4, 4), 1)])) = .next t) ∧
    (∃ t, runCommand 0x0400 (sample .squeeze 32 0 0) = .next t) :=
  ⟨⟨by decide +kernel, rfl, rfl, rfl, rfl⟩, ⟨_, rfl⟩, ⟨_, rfl⟩⟩
theorem witness_CapacityChangesOnlyByPermuteOrZeroing : (sample .absorb 32 134 0).Inv ∧
    (∃ t, runCommand 0x02FF (sample .absorb 32 134 0) = .next t) ∧
    (rateOf (32 : BitVec 8).toNat ≤ (136 : StateAddr).val) := ⟨by decide +kernel, ⟨_, rfl⟩, by decide⟩
theorem witness_PaddingHasTheStatedShape :
    ([] : List Byte).length % DigestSize.d32.rate ≤ DigestSize.d32.rate - 2 ∧
    (List.replicate 71 (0 : Byte)).length % DigestSize.d64.rate = DigestSize.d64.rate - 1 := by decide
theorem witness_HostProceduresReturnTheDigest : (31 : Nat) < 32 ∧ (63 : Nat) < 64 ∧
    64 ≤ (List.replicate 64 (0 : Byte)).length ∧ 3 ≤ ([0x61, 0x62, 0x63] : List Byte).length := by decide
theorem witness_StepsFollowTheIssuedCommands :
    ({ State.reset with inputs := [.command 0x0120, .command 0x0000, .reset] } : State).inputs =
      ([0x0120, 0x0000] : List Word).map .command ++ [.reset] ∧
    ∃ u rs, issueAll [0x0120, 0x0000] { State.reset with inputs := [.command 0x0120, .command 0x0000, .reset] } =
      some (u, rs) := ⟨rfl, _, _, rfl⟩
theorem witness_PinsRefineTheCommand : (∃ t, runCommand 0x0300 (sample .absorb 32 135 0) = .next t) ∧
    (∃ t, runCommand 0x0000 State.reset = .next t) ∧ (⟨false, true, 0x0400⟩ : Pins).rst = false :=
  ⟨⟨_, rfl⟩, ⟨_, rfl⟩, rfl⟩
theorem witness_BusyCoreAcceptsNoCommand :
    (⟨State.reset, some (.accepted 0x0000)⟩ : PortState).outputs.cmdReady = false ∧
    (⟨false, true, 0x0400⟩ : Pins).rst = (⟨false, false, 0⟩ : Pins).rst := by decide

end Sys2Proof.Tests
end

