-- ==== Sys2Proof/Proofs/Rotation.lean ====
section
/-! PROOFS. 00_scope.md R10: complement and circular left rotation of a lane, with the rules for `rotl64` that the
permutation's proofs need. -/

namespace Sys2Proof.Machine

@[simp] theorem rotl64_zero (v : Lane) : rotl64 v 0 = v := rfl

/-- On the amounts R10 allows, `rotl64` is the library's rotation of a 64-bit word. -/
theorem rotl64_eq_rotateLeft (v : Lane) {n : Nat} (hn : n ≤ 63) : rotl64 v n = v.rotateLeft n := by
  have hmod : n % 64 = n := Nat.mod_eq_of_lt (by omega)
  rw [rotl64, BitVec.rotateLeft_def, hmod]
  split
  · next h0 => simp [h0, BitVec.ushiftRight_eq_zero]
  · rfl

/-- The value of a rotation in R10's words: the bits shifted out on the left come back on the right. -/
theorem toNat_rotl64 (v : Lane) {n : Nat} (hn : n ≤ 63) :
    (rotl64 v n).toNat = ((v.toNat * 2 ^ n) % 2 ^ 64) ||| (v.toNat / 2 ^ (64 - n)) := by
  have hmod : n % 64 = n := Nat.mod_eq_of_lt (by omega)
  rw [rotl64_eq_rotateLeft v hn, BitVec.toNat_rotateLeft, hmod, Nat.shiftLeft_eq, Nat.shiftRight_eq_div_pow]

/-- Bit `i` moves to bit `(i + n) mod 64`: `i + n` itself, or `i + n - 64` where the bit wraps around. -/
theorem getLsbD_rotl64_add_mod (v : Lane) {n i : Nat} (hn : n ≤ 63) (hi : i ≤ 63) :
    (rotl64 v n).getLsbD ((i + n) % 64) = v.getLsbD i := by
  have hmod : n % 64 = n := Nat.mod_eq_of_lt (by omega)
  rw [rotl64_eq_rotateLeft v hn, BitVec.getLsbD_rotateLeft, hmod]
  obtain hstay | hwrap := Nat.lt_or_ge (i + n) 64
  · have hpos : (i + n) % 64 = i + n := Nat.mod_eq_of_lt hstay
    simp [hpos, hstay]
  · have hpos : (i + n) % 64 = i + n - 64 := by omega
    have hlow : i + n - 64 < n := by omega
    have hsrc : 64 - n + (i + n - 64) = i := by omega
    simp [hpos, hlow, hsrc]

/-- Settles O14: `rotl64` is the library's rotation for every amount up to 63, and the bit law follows by whether the
bit wraps around. -/
theorem rotationIsCircular : Obligations.RotationIsCircular :=
  ⟨fun _ => BitVec.allOnes_xor.symm, rotl64_zero, fun v _ _ hn => toNat_rotl64 v hn,
    fun v _ _ hn hi => getLsbD_rotl64_add_mod v hn hi⟩

end Sys2Proof.Machine
end

