-- ==== Sys2Proof/Proofs/Commands.lean ====
section
/-! PROOFS. What a command word does, said once for the proofs about state, phases, responses and pins: PERMUTE as one
update, the kinds of next state a command can leave (30_encoding.md R80; 60_exceptions.md R184). -/

namespace Sys2Proof.Machine

/-- PERMUTE applies KECCAK_F to the lanes and leaves RND at 0 (R104). -/
theorem permute_eq (s : State) : permute s = { s with lanes := s.lanes.keccakF, rnd := 0 } := by
  obtain ⟨r, hr⟩ := foldl_roundStep (List.finRange 24) { s with rnd := 0 }
  simp only [permute, hr, Lanes.keccakF]

theorem DigestSize.rate_eq_rateOf_code (d : DigestSize) : d.rate = rateOf d.code.toNat := by cases d <;> rfl

theorem DigestSize.bytes_eq_toNat_code (d : DigestSize) : d.bytes = d.code.toNat := by cases d <;> rfl

theorem DigestSize.rate_pos (d : DigestSize) : 0 < d.rate := by cases d <;> decide

/-- The bound R28 rests on: no block is longer than 136 bytes. -/
theorem DigestSize.rate_le_136 (d : DigestSize) : d.rate ≤ 136 := by cases d <;> decide

theorem DigestSize.bytes_le_64 (d : DigestSize) : d.bytes ≤ 64 := by cases d <;> decide

/-- What a command word can leave, by kind: the registers as they were, a raise, a fresh invocation, or the body of
ABSORB, FINAL or SQUEEZE in the phase that allows it. -/
inductive CommandEffect (w : Word) (s : State) : State → Prop
  | unchanged : CommandEffect w s (respond 0x00 s)
  | raised (e : ErrorCode) : CommandEffect w s (raiseError e s)
  | started (d : DigestSize) (hw : decode w = .instr d.start) : CommandEffect w s (startInvocation d s)
  | absorbed (v : Byte) (d : DigestSize) (p : StateAddr) (hw : decode w = .instr (.absorb v))
      (hs : s.phase = .absorb) (hp : ratePointer s = .ok (d, p)) :
      CommandEffect w s (respond 0x00 (absorbByte d p v s))
  | finished (d : DigestSize) (p : StateAddr) (hw : decode w = .instr .final)
      (hs : s.phase = .absorb) (hp : ratePointer s = .ok (d, p)) :
      CommandEffect w s (respond 0x00 (openSqueeze (permute (injectPadding d p s))))
  | squeezed (d : DigestSize) (p : StateAddr) (hw : decode w = .instr .squeeze)
      (hs : s.phase = .squeeze) (hp : digestPointer s = .ok (d, p)) :
      CommandEffect w s (respond (memRead p s) (afterSqueeze d p s))

/-- Every next state of a command is of one of the kinds. -/
theorem runCommand_effect {w : Word} {s t : State} (h : runCommand w s = .next t) : CommandEffect w s t := by
  obtain ⟨_, _, rfl⟩ | ⟨_, rfl⟩ | ⟨hw, rfl⟩ | ⟨hw, rfl⟩ | ⟨v, hw, hx⟩ | ⟨hw, hx⟩ | ⟨hw, hx⟩ | ⟨_, _, hx⟩ :=
    runCommand_cases h
  · exact .raised .badSize
  · exact .unchanged
  · exact .started .d32 hw
  · exact .started .d64 hw
  · obtain ⟨_, rfl⟩ | ⟨_, _, rfl⟩ | ⟨hs, d, p, hp, rfl⟩ := execAbsorb_cases hx
    · exact .unchanged
    · exact .raised .phase
    · exact .absorbed v d p hw hs hp
  · obtain ⟨_, rfl⟩ | ⟨_, _, rfl⟩ | ⟨hs, d, p, hp, rfl⟩ := execFinal_cases hx
    · exact .unchanged
    · exact .raised .phase
    · exact .finished d p hw hs hp
  · obtain ⟨_, rfl⟩ | ⟨_, rfl⟩ | ⟨_, rfl⟩ | ⟨hs, d, p, hp, rfl⟩ := execSqueeze_cases hx
    · exact .unchanged
    · exact .raised .overread
    · exact .raised .phase
    · exact .squeezed d p hw hs hp
  · obtain ⟨_, rfl⟩ | ⟨_, rfl⟩ := execIllegal_cases hx
    · exact .unchanged
    · exact .raised .illegalCmd

end Sys2Proof.Machine
end


-- ==== Sys2Proof/Proofs/Invariant.lean ====
section
/-! PROOFS. The invariants of 10_state.md R33 and the bounds of R28 and 60_exceptions.md R181: each kind of next state
keeps them, a step under them never stops, and so they hold of every run from reset. -/

namespace Sys2Proof.Machine

-- The pointer and the codes after each operation

theorem ErrorCode.code_ne_zero (e : ErrorCode) : e.code ≠ 0 := by cases e <;> decide

theorem ErrorCode.code_le_four (e : ErrorCode) : e.code.toNat ≤ 4 := by cases e <;> decide

theorem DigestSize.code_legal (d : DigestSize) : d.code = 32 ∨ d.code = 64 := by cases d <;> decide

theorem DigestSize.exists_code {b : BitVec 8} (h : b = 32 ∨ b = 64) : ∃ d : DigestSize, b = d.code := by
  obtain rfl | rfl := h
  · exact ⟨.d32, rfl⟩
  · exact ⟨.d64, rfl⟩

theorem toNat_add_one {b : BitVec 8} {n : Nat} (hlt : b.toNat < n) (hn : n ≤ 200) : (b + 1).toNat = b.toNat + 1 := by
  have hmod : (b.toNat + 1) % 256 = b.toNat + 1 := Nat.mod_eq_of_lt (by omega)
  simpa using hmod

section pointers
variable {s : State} {d : DigestSize} {p : StateAddr} (v : Byte)

theorem absorbByte_of_last (h : p = d.lastRateByte) : absorbByte d p v s = closeBlock (permute (xorByte p v s)) :=
  if_pos h

theorem absorbByte_of_not_last (h : p ≠ d.lastRateByte) :
    absorbByte d p v s = { xorByte p v s with ptr := s.ptr + 1 } := if_neg h

theorem afterSqueeze_of_last (h : p.val = d.bytes - 1) :
    afterSqueeze d p s = { s with lanes := .zero, ptr := 0, phase := .done } := if_pos h

theorem afterSqueeze_of_not_last (h : p.val ≠ d.bytes - 1) : afterSqueeze d p s = { s with ptr := s.ptr + 1 } :=
  if_neg h

/-- ABSORB leaves the pointer inside the block: at 0 after the last byte, one further after any other. -/
theorem absorbByte_ptr_lt (hp : ratePointer s = .ok (d, p)) : (absorbByte d p v s).ptr.toNat < d.rate := by
  obtain ⟨-, hval, hlt⟩ := ratePointer_eq_ok.1 hp
  by_cases hlast : p = d.lastRateByte
  · rw [absorbByte_of_last v hlast, closeBlock_ptr]
    exact Nat.zero_lt_of_lt hlt
  · have hne : p.val ≠ d.rate - 1 := fun h => hlast (Fin.ext h)
    rw [absorbByte_of_not_last v hlast, toNat_add_one hlt d.rate_le]
    omega

theorem absorbByte_rnd (h : s.rnd = 0) : (absorbByte d p v s).rnd = 0 := by
  unfold absorbByte
  split
  · simp
  · exact h

/-- SQUEEZE before the last digest byte leaves the pointer inside the window. -/
theorem afterSqueeze_ptr_lt (hp : digestPointer s = .ok (d, p)) : (afterSqueeze d p s).ptr.toNat < d.bytes := by
  obtain ⟨-, hval, hlt⟩ := digestPointer_eq_ok.1 hp
  by_cases hlast : p.val = d.bytes - 1
  · rw [afterSqueeze_of_last hlast]
    exact Nat.zero_lt_of_lt hlt
  · rw [afterSqueeze_of_not_last hlast, toNat_add_one hlt d.bytes_le]
    omega

end pointers

-- The invariant, phase by phase

section invariant
variable {s : State} {d : DigestSize} {p : StateAddr}

theorem inv_iff_of_absorb (h : s.phase = .absorb) :
    s.Inv ↔ (s.dsz = 32 ∨ s.dsz = 64) ∧ s.err = 0 ∧ s.ptr.toNat < rateOf s.dsz.toNat ∧ s.rnd = 0 := by
  simp [State.Inv, h]

theorem inv_iff_of_squeeze (h : s.phase = .squeeze) :
    s.Inv ↔ (s.dsz = 32 ∨ s.dsz = 64) ∧ s.err = 0 ∧ s.ptr.toNat < s.dsz.toNat ∧ s.rnd = 0 := by
  simp [State.Inv, h]

theorem inv_iff_of_done (h : s.phase = .done) :
    s.Inv ↔ (s.dsz = 32 ∨ s.dsz = 64) ∧ s.err = 0 ∧ (s.ptr = 0 ∧ s.lanes = .zero) ∧ s.rnd = 0 := by
  simp [State.Inv, h]

theorem inv_iff_of_fault (h : s.phase = .fault) : s.Inv ↔ (s.dsz = 32 ∨ s.dsz = 64) ∧ s.err ≠ 0 ∧ s.rnd = 0 := by
  simp [State.Inv, h]

theorem raiseError_inv (e : ErrorCode) (hs : s.Inv) : (raiseError e s).Inv := by
  obtain ⟨hdsz, -, -, -, -, hrnd⟩ := hs
  exact (inv_iff_of_fault rfl).2 ⟨hdsz, e.code_ne_zero, hrnd⟩

theorem startInvocation_inv (d : DigestSize) (hs : s.Inv) : (startInvocation d s).Inv := by
  obtain ⟨-, -, -, -, -, hrnd⟩ := hs
  refine (inv_iff_of_absorb rfl).2 ⟨d.code_legal, rfl, ?_, hrnd⟩
  rw [startInvocation_dsz, ← d.rate_eq_rateOf_code]
  exact d.rate_pos

theorem absorbByte_inv (v : Byte) (hs : s.Inv) (ha : s.phase = .absorb) (hp : ratePointer s = .ok (d, p)) :
    (absorbByte d p v s).Inv := by
  obtain ⟨hdsz, herr, -, hrnd⟩ := (inv_iff_of_absorb ha).1 hs
  obtain ⟨hd, -, -⟩ := ratePointer_eq_ok.1 hp
  refine (inv_iff_of_absorb (by simpa using ha)).2 ⟨by simpa using hdsz, by simpa using herr, ?_, absorbByte_rnd v hrnd⟩
  rw [absorbByte_dsz, hd, ← d.rate_eq_rateOf_code]
  exact absorbByte_ptr_lt v hp

/-- FINAL keeps the invariant whatever bytes it injects: PERMUTE brings RND back to 0 and PTR starts at 0. -/
theorem openSqueeze_inv (hs : s.Inv) (ha : s.phase = .absorb) : (openSqueeze (permute (injectPadding d p s))).Inv := by
  obtain ⟨hdsz, herr, -, -⟩ := (inv_iff_of_absorb ha).1 hs
  refine (inv_iff_of_squeeze rfl).2 ⟨by simpa using hdsz, by simpa using herr, ?_, by simp⟩
  obtain h | h := hdsz <;> simp [h]

theorem afterSqueeze_inv (hs : s.Inv) (hq : s.phase = .squeeze) (hp : digestPointer s = .ok (d, p)) :
    (afterSqueeze d p s).Inv := by
  obtain ⟨hdsz, herr, -, hrnd⟩ := (inv_iff_of_squeeze hq).1 hs
  obtain ⟨hd, -, -⟩ := digestPointer_eq_ok.1 hp
  have hlt := afterSqueeze_ptr_lt hp
  by_cases hlast : p.val = d.bytes - 1
  · rw [afterSqueeze_of_last hlast]
    exact (inv_iff_of_done rfl).2 ⟨hdsz, herr, ⟨rfl, rfl⟩, hrnd⟩
  · rw [d.bytes_eq_toNat_code, ← hd, afterSqueeze_of_not_last hlast] at hlt
    rw [afterSqueeze_of_not_last hlast]
    exact (inv_iff_of_squeeze (s := { s with ptr := s.ptr + 1 }) hq).2 ⟨hdsz, herr, hlt, hrnd⟩

/-- A response is no part of the invariant. -/
theorem respond_inv (v : Byte) (hs : s.Inv) : (respond v s).Inv := hs

theorem commandEffect_inv {w : Word} {t : State} (h : CommandEffect w s t) (hs : s.Inv) : t.Inv := by
  cases h with
  | unchanged => exact respond_inv _ hs
  | raised e => exact raiseError_inv e hs
  | started d _ => exact startInvocation_inv d hs
  | absorbed v d p _ ha hp => exact respond_inv _ (absorbByte_inv v hs ha hp)
  | finished d p _ ha _ => exact respond_inv _ (openSqueeze_inv hs ha)
  | squeezed d p _ hq hp => exact respond_inv _ (afterSqueeze_inv hs hq hp)

end invariant

/-- Settles O42: phase IDLE asks for PTR 0 and zero lanes, which is what reset writes. -/
theorem invariantHoldsAtReset : Obligations.InvariantHoldsAtReset :=
  ⟨⟨.inl rfl, by decide, nofun, nofun, fun _ => ⟨rfl, rfl⟩, rfl⟩, rfl⟩

/-- Settles O43: waiting touches no register, a command's effect keeps the invariant kind by kind, and the Reset event
gives the reset state, where it holds. -/
theorem everyStepKeepsTheInvariant : Obligations.EveryStepKeepsTheInvariant := by
  intro s t hs h
  obtain ⟨_, rfl⟩ | ⟨w, rest, _, hw⟩ | ⟨_, _, _, _, rfl⟩ := step_cases h
  · exact hs
  · exact commandEffect_inv (runCommand_effect hw) hs
  · exact invariantHoldsAtReset.1

-- No run from reset stops

section progress
variable {s : State}

/-- Under the invariant the pointer of phase ABSORB is an address of the rate region. -/
theorem exists_ratePointer (hs : s.Inv) (ha : s.phase = .absorb) : ∃ d p, ratePointer s = .ok (d, p) := by
  obtain ⟨hdsz, -, hlt, -⟩ := (inv_iff_of_absorb ha).1 hs
  obtain ⟨d, hd⟩ := DigestSize.exists_code hdsz
  rw [hd, ← d.rate_eq_rateOf_code] at hlt
  exact ⟨d, ⟨_, hlt.trans_le d.rate_le⟩, ratePointer_eq_ok.2 ⟨hd, rfl, hlt⟩⟩

/-- Under the invariant the pointer of phase SQUEEZE is an address of the digest window. -/
theorem exists_digestPointer (hs : s.Inv) (hq : s.phase = .squeeze) : ∃ d p, digestPointer s = .ok (d, p) := by
  obtain ⟨hdsz, -, hlt, -⟩ := (inv_iff_of_squeeze hq).1 hs
  obtain ⟨d, hd⟩ := DigestSize.exists_code hdsz
  rw [hd, ← d.bytes_eq_toNat_code] at hlt
  exact ⟨d, ⟨_, hlt.trans_le d.bytes_le⟩, digestPointer_eq_ok.2 ⟨hd, rfl, hlt⟩⟩

theorem unlessFaulted_completes {k : Host.Outcome State Fault Refusal} (hk : ∃ t, k = .next t) :
    ∃ t, unlessFaulted s k = .next t := by
  unfold unlessFaulted
  split
  · exact ⟨_, rfl⟩
  · exact hk

theorem execAbsorb_completes (v : Byte) (hs : s.Inv) : ∃ t, execAbsorb v s = .next t := by
  refine unlessFaulted_completes ?_
  split
  · next ha =>
    obtain ⟨d, p, hp⟩ := exists_ratePointer hs ha
    simp [hp]
  · exact ⟨_, rfl⟩

theorem execFinal_completes (hs : s.Inv) : ∃ t, execFinal s = .next t := by
  refine unlessFaulted_completes ?_
  split
  · next ha =>
    obtain ⟨d, p, hp⟩ := exists_ratePointer hs ha
    simp [hp]
  · exact ⟨_, rfl⟩

theorem execSqueeze_completes (hs : s.Inv) : ∃ t, execSqueeze s = .next t := by
  refine unlessFaulted_completes ?_
  split
  · exact ⟨_, rfl⟩
  · split
    · next hq =>
      obtain ⟨d, p, hp⟩ := exists_digestPointer hs hq
      simp [hp]
    · exact ⟨_, rfl⟩

/-- Every command word completes in a state of R33 (R221). -/
theorem runCommand_completes (w : Word) (hs : s.Inv) : ∃ t, runCommand w s = .next t := by
  unfold runCommand
  cases decode w with
  | startBad imm => exact ⟨_, rfl⟩
  | illegal v => exact unlessFaulted_completes ⟨_, rfl⟩
  | instr i =>
    cases i with
    | nop | start256 | start512 => exact ⟨_, rfl⟩
    | absorb v => exact execAbsorb_completes v hs
    | final => exact execFinal_completes hs
    | squeeze => exact execSqueeze_completes hs

theorem step_completes (hs : s.Inv) : ∃ t, step s = .next t := by
  unfold step
  split
  · exact ⟨_, rfl⟩
  · exact runCommand_completes _ hs
  · exact ⟨_, rfl⟩
  · exact ⟨_, rfl⟩

/-- Any number of steps from a state of R33 answers a state of R33. -/
theorem run_completes_with_inv (k : Nat) (hs : s.Inv) : ∃ t : State, Sys2Proof.core.run k s = .next t ∧ t.Inv := by
  induction k generalizing s with
  | zero => exact ⟨s, rfl, hs⟩
  | succ k ih =>
    obtain ⟨u, hu⟩ := step_completes hs
    obtain ⟨t, ht, hinv⟩ := ih (everyStepKeepsTheInvariant s u hs hu)
    have hcore : Sys2Proof.core.step s = .next u := hu
    exact ⟨t, by simp only [Host.Core.run, hcore, ht], hinv⟩

end progress

/-- Settles O44: the run starts from the reset state, which meets the invariant whatever the host does next. -/
theorem reachableStatesMeetTheInvariants : Obligations.ReachableStatesMeetTheInvariants := by
  intro events k
  have hreset : State.Inv { State.reset with inputs := events } := invariantHoldsAtReset.1
  obtain ⟨t, ht, hinv⟩ := run_completes_with_inv k hreset
  exact ⟨t, ht, hinv, rfl⟩

-- The values PTR and ERR ever hold

theorem commandEffect_codes {w : Word} {s t : State} (h : CommandEffect w s t) (hc : s.Codes) : t.Codes := by
  obtain ⟨hptr, herr⟩ := hc
  cases h with
  | unchanged => exact ⟨hptr, herr⟩
  | raised e => exact ⟨hptr, e.code_le_four⟩
  | started d _ => exact ⟨Nat.zero_le _, Nat.zero_le _⟩
  | absorbed v d p _ _ hp =>
    have hlt : (absorbByte d p v s).ptr.toNat < d.rate := absorbByte_ptr_lt v hp
    have hrate := d.rate_le_136
    exact ⟨by rw [respond_ptr]; omega, by simpa using herr⟩
  | finished d p _ _ _ => exact ⟨Nat.zero_le _, by simpa using herr⟩
  | squeezed d p _ _ hp =>
    have hlt : (afterSqueeze d p s).ptr.toNat < d.bytes := afterSqueeze_ptr_lt hp
    have hbytes := d.bytes_le_64
    exact ⟨by rw [respond_ptr]; omega, by simpa using herr⟩

/-- Settles O45: a pointer that moves stays inside a window of at most 136 bytes, and ERR is kept, cleared or set to a
code of Table 60-1. -/
theorem pointerAndErrorStayInRange : Obligations.PointerAndErrorStayInRange := by
  refine ⟨by decide, fun s t _ hc h => ?_⟩
  obtain ⟨_, rfl⟩ | ⟨w, rest, _, hw⟩ | ⟨_, _, _, _, rfl⟩ := step_cases h
  · exact hc
  · exact commandEffect_codes (runCommand_effect hw) hc
  · exact ⟨Nat.zero_le _, Nat.zero_le _⟩

end Sys2Proof.Machine
end

