-- ==== Sys2Proof/Proofs/Registers.lean ====
section
/-! PROOFS. The registers one by one (10_state.md): the reset table, the rate region, PHASE and who writes it, the status
outputs. -/

namespace Sys2Proof.Machine

/-- Settles O1: every row of Table 10-2 is the field `State.reset` writes; the lanes are the zero state's. -/
theorem resetHoldsTheTabledValues : Obligations.ResetHoldsTheTabledValues :=
  ⟨Lanes.get_zero, rfl, rfl, rfl, rfl, rfl, rfl, rfl, rfl, rfl, rfl⟩

/-- Settles O13: both rates are multiples of 8, so a byte lies below the rate exactly when its lane does. -/
theorem rateRegionIsWholeLanes : Obligations.RateRegionIsWholeLanes := by
  intro d
  cases d with
  | d32 =>
    refine ⟨rfl, rfl, rfl, rfl, fun _ => rfl, nofun, fun j => ?_⟩
    change j.val < 17 * 8 ↔ j.val / 8 < 17
    omega
  | d64 =>
    refine ⟨rfl, rfl, rfl, rfl, nofun, fun _ => rfl, fun j => ?_⟩
    change j.val < 9 * 8 ↔ j.val / 8 < 9
    omega

theorem State.doneFlag_iff (s : State) : s.doneFlag = true ↔ s.phase.code = 3 := beq_iff_eq

theorem State.faultFlag_iff (s : State) : s.faultFlag = true ↔ s.phase.code = 4 := beq_iff_eq

/-- Settles O40: each output is its register's comparison, and `busy` asks whether a command is in progress. -/
theorem statusOutputsFollowTheRegisters : Obligations.StatusOutputsFollowTheRegisters :=
  ⟨fun s => ⟨s.doneFlag_iff, s.faultFlag_iff⟩,
    fun p => ⟨Option.isSome_iff_exists, p.core.doneFlag_iff, p.core.faultFlag_iff, rfl⟩⟩

theorem Phase.code_le_four (p : Phase) : p.code.toNat ≤ 4 := by cases p <;> decide

/-- A command that changes PHASE is a START, the FINAL or the last SQUEEZE of an invocation, or it raises (R27). -/
theorem commandEffect_phase {w : Word} {s t : State} (h : CommandEffect w s t) (hne : t.phase ≠ s.phase) :
    (t.phase = .absorb ∧ (decode w = .instr .start256 ∨ decode w = .instr .start512)) ∨
    (t.phase = .squeeze ∧ s.phase = .absorb ∧ decode w = .instr .final) ∨
    (t.phase = .done ∧ s.phase = .squeeze ∧ decode w = .instr .squeeze ∧ s.ptr.toNat + 1 = s.dsz.toNat) ∨
    (t.phase = .fault ∧ t.err ≠ 0x00) := by
  cases h with
  | unchanged => exact absurd rfl hne
  | raised e => exact .inr (.inr (.inr ⟨rfl, e.code_ne_zero⟩))
  | started d hw =>
    cases d with
    | d32 => exact .inl ⟨rfl, .inl hw⟩
    | d64 => exact .inl ⟨rfl, .inr hw⟩
  | absorbed v d p _ _ _ => exact absurd (absorbByte_phase d p v s) hne
  | finished d p hw ha _ => exact .inr (.inl ⟨rfl, ha, hw⟩)
  | squeezed d p hw hq hp =>
    obtain ⟨hd, hval, hlt⟩ := digestPointer_eq_ok.1 hp
    by_cases hlast : p.val = d.bytes - 1
    · refine .inr (.inr (.inl ⟨by rw [respond_phase, afterSqueeze_of_last hlast], hq, hw, ?_⟩))
      rw [hd, ← d.bytes_eq_toNat_code]
      omega
    · rw [respond_phase, afterSqueeze_of_not_last hlast] at hne
      exact absurd rfl hne

/-- Settles O38: waiting keeps PHASE, the Reset event writes IDLE, and a command writes it as `commandEffect_phase`
says. -/
theorem phaseIsWrittenAsStated : Obligations.PhaseIsWrittenAsStated := by
  refine ⟨rfl, rfl, rfl, rfl, rfl, Phase.code_le_four, fun _ => rfl, fun s t h hne => ?_⟩
  obtain ⟨_, rfl⟩ | ⟨w, rest, hin, hw⟩ | ⟨e, rest, hin, he, rfl⟩ := step_cases h
  · exact absurd rfl hne
  · exact .inr ⟨w, rest, hin, commandEffect_phase (s := { s with inputs := rest }) (runCommand_effect hw) hne⟩
  · exact .inl ⟨rfl, e, rest, hin, he⟩

end Sys2Proof.Machine
end

