-- ==== Sys2Proof/Proofs/Bytes.lean ====
section
/-! PROOFS. 10_state.md R23: the byte view and the lanes are two views of the same bits. Bit `b` of byte `k` of a lane is
bit `8k + b` of the lane; every fact about bytes is read off bit by bit. -/

namespace Sys2Proof.Machine

-- Bits of a lane by byte and bit

/-- Two lanes with the same bits in each of their eight bytes are the same lane. -/
theorem Lane.ext_bytes {u v : Lane} (h : ∀ k b, k < 8 → b < 8 → u.getLsbD (8 * k + b) = v.getLsbD (8 * k + b)) :
    u = v := by
  refine BitVec.eq_of_getLsbD_eq fun i hi => ?_
  have hsplit : 8 * (i / 8) + i % 8 = i := Nat.div_add_mod i 8
  have hbit := h (i / 8) (i % 8) (by omega) (by omega)
  rwa [hsplit] at hbit

/-- A byte shifted to byte `m` of a lane has its bits there and 0 in the seven others. -/
theorem getLsbD_byte_shiftLeft (v : Byte) {m k b : Nat} (hk : k < 8) (hb : b < 8) :
    ((v.setWidth 64 : Lane) <<< (8 * m)).getLsbD (8 * k + b) = (decide (k = m) && v.getLsbD b) := by
  have hlt : 8 * k + b < 64 := by omega
  obtain hkm | rfl | hmk := Nat.lt_trichotomy k m
  · have hbelow : 8 * k + b < 8 * m := by omega
    simp [hbelow, Nat.ne_of_lt hkm]
  · simp [hlt]
  · have habove : 8 ≤ 8 * k + b - 8 * m := by omega
    simp [BitVec.getLsbD_of_ge v _ habove, Nat.ne_of_gt hmk]

-- Bytes of a state

theorem Lanes.getLsbD_byte (a : Lanes) (j : StateAddr) {b : Nat} (hb : b < 8) :
    (a.byte j).getLsbD b = (a.lane (laneOf j)).getLsbD (bitOf j + b) := by
  simp [Lanes.byte, hb]

/-- The address of byte `k` of lane `A[x][y]` (R23, R51). -/
def byteAddr (x y : Fin 5) (k : Nat) (hk : k < 8) : StateAddr := ⟨8 * (laneIndex x y).val + k, by omega⟩

theorem laneOf_byteAddr (x y : Fin 5) {k : Nat} (hk : k < 8) : laneOf (byteAddr x y k hk) = laneIndex x y := by
  simp only [laneOf, byteAddr, Fin.ext_iff]
  omega

theorem bitOf_byteAddr (x y : Fin 5) {k : Nat} (hk : k < 8) : bitOf (byteAddr x y k hk) = 8 * k := by
  simp only [bitOf, byteAddr]
  omega

/-- Every address is that of a byte of a lane. -/
theorem exists_byteAddr (j : StateAddr) : ∃ x y k, ∃ hk : k < 8, j = byteAddr x y k hk := by
  refine ⟨laneX (laneOf j), laneY (laneOf j), j.val % 8, Nat.mod_lt _ (by decide), Fin.ext ?_⟩
  simp only [byteAddr, laneIndex, laneX, laneY, laneOf]
  omega

/-- The relation of R23: bit `b` of byte `k` of a lane is the lane's bit `8k + b`. -/
theorem Lanes.getLsbD_byte_byteAddr (a : Lanes) (x y : Fin 5) {k b : Nat} (hk : k < 8) (hb : b < 8) :
    (a.byte (byteAddr x y k hk)).getLsbD b = (a.get x y).getLsbD (8 * k + b) := by
  rw [a.getLsbD_byte _ hb, laneOf_byteAddr, bitOf_byteAddr, Lanes.lane_laneIndex]

theorem Lanes.getLsbD_get_ofBytes (f : StateAddr → Byte) (x y : Fin 5) {k b : Nat} (hk : k < 8) (hb : b < 8) :
    ((Lanes.ofBytes f).get x y).getLsbD (8 * k + b) = (f (byteAddr x y k hk)).getLsbD b := by
  rw [Lanes.ofBytes, Lanes.get_ofFn]
  simp only [BitVec.getLsbD_or, getLsbD_byte_shiftLeft _ hk hb]
  interval_cases k <;> simp [byteAddr]

theorem Lanes.ofBytes_byte (a : Lanes) : Lanes.ofBytes a.byte = a := by
  refine Lanes.ext_get fun x y => Lane.ext_bytes fun k b hk hb => ?_
  rw [Lanes.getLsbD_get_ofBytes _ _ _ hk hb, Lanes.getLsbD_byte_byteAddr _ _ _ hk hb]

@[simp] theorem Lanes.byte_ofBytes (f : StateAddr → Byte) (j : StateAddr) : (Lanes.ofBytes f).byte j = f j := by
  obtain ⟨x, y, k, hk, rfl⟩ := exists_byteAddr j
  refine BitVec.eq_of_getLsbD_eq fun b hb => ?_
  rw [Lanes.getLsbD_byte_byteAddr _ _ _ hk hb, Lanes.getLsbD_get_ofBytes _ _ _ hk hb]

/-- Two states with the same 200 bytes are the same state. -/
theorem Lanes.ext_byte {a b : Lanes} (h : ∀ j, a.byte j = b.byte j) : a = b := by
  rw [← a.ofBytes_byte, ← b.ofBytes_byte, funext h]

-- Writing a byte

/-- Replacing byte `m` of a lane leaves its seven other bytes. -/
theorem getLsbD_replace_byte (l : Lane) (v : Byte) {m k b : Nat} (hk : k < 8) (hb : b < 8) :
    ((l &&& ~~~((0xFF : Lane) <<< (8 * m))) ||| (v.setWidth 64 <<< (8 * m))).getLsbD (8 * k + b) =
      if k = m then v.getLsbD b else l.getLsbD (8 * k + b) := by
  have hmask : ((0xFF : Lane) <<< (8 * m)).getLsbD (8 * k + b) = decide (k = m) := by
    have hones : (0xFF : Byte).getLsbD b = true := by interval_cases b <;> rfl
    have hshift := getLsbD_byte_shiftLeft 0xFF (m := m) hk hb
    rwa [hones, Bool.and_true] at hshift
  have hlt : 8 * k + b < 64 := by omega
  rw [BitVec.getLsbD_or, BitVec.getLsbD_and, BitVec.getLsbD_not, hmask, getLsbD_byte_shiftLeft v hk hb]
  by_cases hkm : k = m <;> simp [hkm, hlt]

theorem Lanes.byte_setByte (a : Lanes) (j i : StateAddr) (v : Byte) :
    (a.setByte j v).byte i = if i = j then v else a.byte i := by
  refine BitVec.eq_of_getLsbD_eq fun b hb => ?_
  rw [Lanes.getLsbD_byte _ _ hb, Lanes.setByte, Lanes.lane_setLane]
  by_cases hlane : laneOf i = laneOf j
  · have hk : i.val % 8 < 8 := Nat.mod_lt _ (by decide)
    have hij : i = j ↔ i.val % 8 = j.val % 8 := by
      simp only [laneOf, Fin.ext_iff] at hlane ⊢
      omega
    rw [if_pos hlane, bitOf, bitOf, getLsbD_replace_byte _ v hk hb]
    by_cases hkm : i.val % 8 = j.val % 8
    · rw [if_pos hkm, if_pos (hij.2 hkm)]
    · rw [if_neg hkm, if_neg (mt hij.1 hkm), Lanes.getLsbD_byte _ _ hb, hlane, bitOf]
  · have hij : i ≠ j := fun h => hlane (h ▸ rfl)
    rw [if_neg hlane, if_neg hij, Lanes.getLsbD_byte _ _ hb]

/-- Settles O11: the relation holds bit by bit, and the round trips and the write law are read off the bits. -/
theorem byteViewAndLanesAreOneState : Obligations.ByteViewAndLanesAreOneState := by
  refine ⟨fun a x y j k b hk hb hj => ?_, Lanes.ofBytes_byte, Lanes.byte_ofBytes, Lanes.byte_setByte⟩
  obtain rfl : j = byteAddr x y k hk := Fin.ext hj
  exact a.getLsbD_byte_byteAddr x y hk hb

end Sys2Proof.Machine
end

