-- ==== Sys2Proof/Proofs/Isolation.lean ====
section
/-! PROOFS. What a response can depend on (10_state.md R25; 20_memory.md R57): the answer to a command word is a function
of DSZ, PHASE, PTR, ERR and one byte of the digest window. -/

namespace Sys2Proof.Machine

/-- The byte a SQUEEZE would give out, `S[PTR]` inside the digest window (R131). -/
def digestByte (s : State) : Byte :=
  match digestPointer s with
  | .ok (_, p) => memRead p s
  | .error _ => 0x00

/-- The answer of ABSORB and FINAL: the status in the phase that allows them and in phase FAULT, E_PHASE elsewhere. -/
def absorbPhaseAnswer (s : State) : Word :=
  if s.phase = .fault ∨ s.phase = .absorb then formatR s.err 0x00 else formatR ErrorCode.phase.code 0x00

/-- The answer of SQUEEZE, phase by phase (R131). -/
def squeezeAnswer (s : State) : Word :=
  match s.phase with
  | .squeeze => formatR s.err (digestByte s)
  | .fault => formatR s.err 0x00
  | .done => formatR ErrorCode.overread.code 0x00
  | .idle | .absorb => formatR ErrorCode.phase.code 0x00

/-- The response word of a decoded command in a state where it completes (R73). -/
def answer (c : Command) (s : State) : Word :=
  match c with
  | .startBad _ => formatR ErrorCode.badSize.code 0x00
  | .instr .nop => formatR s.err 0x00
  | .instr .start256 | .instr .start512 => formatR 0x00 0x00
  | .instr (.absorb _) | .instr .final => absorbPhaseAnswer s
  | .instr .squeeze => squeezeAnswer s
  | .illegal _ => if s.phase = .fault then formatR s.err 0x00 else formatR ErrorCode.illegalCmd.code 0x00

section rsp
variable {s t : State}

theorem execAbsorb_rsp {v : Byte} (h : execAbsorb v s = .next t) : t.rsp = some (absorbPhaseAnswer s) := by
  obtain ⟨hf, rfl⟩ | ⟨hf, ha, rfl⟩ | ⟨ha, d, p, _, rfl⟩ := execAbsorb_cases h
  · simp [absorbPhaseAnswer, hf]
  · simp [absorbPhaseAnswer, hf, ha]
  · simp [absorbPhaseAnswer, ha]

theorem execFinal_rsp (h : execFinal s = .next t) : t.rsp = some (absorbPhaseAnswer s) := by
  obtain ⟨hf, rfl⟩ | ⟨hf, ha, rfl⟩ | ⟨ha, d, p, _, rfl⟩ := execFinal_cases h
  · simp [absorbPhaseAnswer, hf]
  · simp [absorbPhaseAnswer, hf, ha]
  · simp [absorbPhaseAnswer, ha]

theorem execSqueeze_rsp (h : execSqueeze s = .next t) : t.rsp = some (squeezeAnswer s) := by
  obtain ⟨hf, rfl⟩ | ⟨hd, rfl⟩ | ⟨hi | ha, rfl⟩ | ⟨hq, d, p, hp, rfl⟩ := execSqueeze_cases h
  · simp [squeezeAnswer, hf]
  · simp [squeezeAnswer, hd]
  · simp [squeezeAnswer, hi]
  · simp [squeezeAnswer, ha]
  · simp [squeezeAnswer, hq, digestByte, hp]

theorem execIllegal_rsp {w v : Word} (h : execIllegal v s = .next t) : t.rsp = some (answer (.illegal w) s) := by
  obtain ⟨hf, rfl⟩ | ⟨hf, rfl⟩ := execIllegal_cases h
  · simp [answer, hf]
  · simp [answer, hf]

/-- A command that completes responds with its answer. -/
theorem runCommand_rsp {w : Word} (h : runCommand w s = .next t) : t.rsp = some (answer (decode w) s) := by
  obtain ⟨_, hw, rfl⟩ | ⟨hw, rfl⟩ | ⟨hw, rfl⟩ | ⟨hw, rfl⟩ | ⟨v, hw, hx⟩ | ⟨hw, hx⟩ | ⟨hw, hx⟩ | ⟨_, hw, hx⟩ :=
    runCommand_cases h <;> rw [hw]
  · rfl
  · rfl
  · rfl
  · rfl
  · exact execAbsorb_rsp hx
  · exact execFinal_rsp hx
  · exact execSqueeze_rsp hx
  · exact execIllegal_rsp hx

/-- Where the pointer is a digest address the byte lies below DSZ, so the two states agree on it. -/
theorem digestByte_eq_of_agreeBelow (h : s.agreeBelow s.dsz.toNat t) : digestByte s = digestByte t := by
  obtain ⟨hbytes, hdsz, -, hptr, -⟩ := h
  have hpointer : digestPointer s = digestPointer t := by simp only [digestPointer, pointerBelow, hdsz, hptr]
  unfold digestByte
  rw [← hpointer]
  split
  · next d p hp =>
    obtain ⟨hd, hval, hlt⟩ := digestPointer_eq_ok.1 hp
    exact hbytes p (by rw [hd, ← d.bytes_eq_toNat_code, hval]; exact hlt)
  · rfl

theorem answer_eq_of_agreeBelow (c : Command) (h : s.agreeBelow s.dsz.toNat t) : answer c s = answer c t := by
  have hbyte := digestByte_eq_of_agreeBelow h
  obtain ⟨-, -, hphase, -, herr⟩ := h
  simp only [answer, absorbPhaseAnswer, squeezeAnswer, hbyte, hphase, herr]

end rsp

/-- Settles O46: both responses are the command's answer, which reads only what the two states agree on. -/
theorem responsesDependOnTheDigestWindowOnly : Obligations.ResponsesDependOnTheDigestWindowOnly := by
  intro w s t s' t' h hs ht
  rw [runCommand_rsp hs, runCommand_rsp ht, answer_eq_of_agreeBelow _ h]

end Sys2Proof.Machine
end

