-- ==== Sys2Proof/Proofs/Pins.lean ====
section
/-! PROOFS. The ticks at the pins against the one-step command (10_state.md R31; 30_encoding.md R80;
40_permutation_engine.md R104): a command that permutes is its byte XORs, 24 round ticks and its end; any other command
is one tick; and the response of an earlier command, cleared at acceptance, changes nothing. -/

namespace Sys2Proof.Machine

-- An earlier response is read by no command (log entry 2)

section earlierResponse
variable (s : State)

@[simp] theorem respond_waitForHost (v : Byte) : respond v (waitForHost s) = respond v s := rfl

@[simp] theorem raiseError_waitForHost (e : ErrorCode) : raiseError e (waitForHost s) = raiseError e s := rfl

@[simp] theorem ratePointer_waitForHost : ratePointer (waitForHost s) = ratePointer s := rfl

@[simp] theorem digestPointer_waitForHost : digestPointer (waitForHost s) = digestPointer s := rfl

@[simp] theorem memRead_waitForHost (j : StateAddr) : memRead j (waitForHost s) = memRead j s := rfl

@[simp] theorem absorbByte_waitForHost (d : DigestSize) (p : StateAddr) (v : Byte) :
    absorbByte d p v (waitForHost s) = waitForHost (absorbByte d p v s) := by
  by_cases hlast : p = d.lastRateByte
  · rw [absorbByte_of_last v hlast, absorbByte_of_last v hlast, permute_eq, permute_eq]
    rfl
  · rw [absorbByte_of_not_last v hlast, absorbByte_of_not_last v hlast]
    rfl

@[simp] theorem openSqueeze_permute_waitForHost (d : DigestSize) (p : StateAddr) :
    openSqueeze (permute (injectPadding d p (waitForHost s))) =
      waitForHost (openSqueeze (permute (injectPadding d p s))) := by
  rw [permute_eq, permute_eq]
  rfl

@[simp] theorem afterSqueeze_waitForHost (d : DigestSize) (p : StateAddr) :
    afterSqueeze d p (waitForHost s) = waitForHost (afterSqueeze d p s) := by
  by_cases hlast : p.val = d.bytes - 1
  · rw [afterSqueeze_of_last hlast, afterSqueeze_of_last hlast]
    rfl
  · rw [afterSqueeze_of_not_last hlast, afterSqueeze_of_not_last hlast]
    rfl

theorem exec_waitForHost (i : Instr) : exec i (waitForHost s) = exec i s := by
  cases i with
  | nop | start256 | start512 => rfl
  | absorb v => simp [exec, execAbsorb, unlessFaulted]
  | final => simp [exec, execFinal, unlessFaulted]
  | squeeze => simp [exec, execSqueeze, unlessFaulted]

theorem runCommand_waitForHost (w : Word) : runCommand w (waitForHost s) = runCommand w s := by
  unfold runCommand
  cases decode w with
  | instr i => exact exec_waitForHost s i
  | startBad imm => rfl
  | illegal v => rfl

end earlierResponse

-- What stands before the permutation

/-- Only ABSORB at the last byte of a block and FINAL run a permutation, on the state with their bytes XORed in. -/
theorem commandBeforePermute_cases {c : Command} {s u : State} {k : AfterPermute}
    (h : commandBeforePermute c s = some (u, k)) :
    s.phase = .absorb ∧ ∃ d p, ratePointer s = .ok (d, p) ∧
      ((∃ v, c = .instr (.absorb v) ∧ p = d.lastRateByte ∧ u = xorByte p v s ∧ k = .absorb) ∨
       (c = .instr .final ∧ u = injectPadding d p s ∧ k = .final)) := by
  cases c with
  | startBad _ | illegal _ => cases h
  | instr i =>
    cases i with
    | nop | start256 | start512 | squeeze => cases h
    | absorb v =>
      simp only [commandBeforePermute, beforePermute, Option.ite_none_right_eq_some] at h
      obtain ⟨ha, h⟩ := h
      split at h
      · next d p hp =>
        obtain ⟨hlast, heq⟩ := Option.ite_none_right_eq_some.1 h
        cases heq
        exact ⟨ha, d, p, hp, .inl ⟨v, rfl, hlast, rfl, rfl⟩⟩
      · cases h
    | final =>
      simp only [commandBeforePermute, beforePermute, Option.ite_none_right_eq_some] at h
      obtain ⟨ha, h⟩ := h
      split at h
      · next d p hp =>
        cases h
        exact ⟨ha, d, p, hp, .inr ⟨rfl, rfl, rfl⟩⟩
      · cases h

/-- The command that permutes is its bytes, PERMUTE and its end. -/
theorem execCommand_of_beforePermute {c : Command} {s u : State} {k : AfterPermute}
    (h : commandBeforePermute c s = some (u, k)) : execCommand c s = .next (k.finish (permute u)) := by
  obtain ⟨ha, d, p, hp, ⟨v, rfl, hlast, rfl, rfl⟩ | ⟨rfl, rfl, rfl⟩⟩ := commandBeforePermute_cases h
  · have hbyte : absorbByte d p v s = closeBlock (permute (xorByte p v s)) := absorbByte_of_last v hlast
    simp [execCommand, exec, execAbsorb, unlessFaulted, ha, hp, hbyte, AfterPermute.finish]
  · simp [execCommand, exec, execFinal, unlessFaulted, ha, hp, AfterPermute.finish]

theorem commandBeforePermute_rsp {c : Command} {s u : State} {k : AfterPermute}
    (h : commandBeforePermute c s = some (u, k)) : u.rsp = s.rsp := by
  obtain ⟨-, d, p, -, ⟨v, -, -, rfl, -⟩ | ⟨-, rfl, -⟩⟩ := commandBeforePermute_cases h
  · rfl
  · rfl

-- One tick, by the command in progress

theorem ticks_cons {q : Pins} {l : List Pins} {p p' : PortState} (h : tick q p = .next p') :
    ticks (q :: l) p = ticks l p' := by simp only [ticks, h]

theorem roundIndex_ofNat (ir : Fin 24) : roundIndex (BitVec.ofNat 5 ir.val) = some ir := by
  revert ir
  decide

section tick
variable {q : Pins} (hrst : q.rst = false)
include hrst

theorem tick_completes {w : Word} {s t : State} (hb : commandBeforePermute (decode w) s = none)
    (ht : runCommand w s = .next t) : tick q ⟨s, some (.accepted w)⟩ = .next ⟨t, none⟩ := by
  simp [tick, hrst, hb, ht]

theorem tick_starts_permute {w : Word} {s u : State} {k : AfterPermute}
    (hb : commandBeforePermute (decode w) s = some (u, k)) :
    tick q ⟨s, some (.accepted w)⟩ = .next ⟨{ u with rnd := 0 }, some (.permuting k)⟩ := by
  simp [tick, hrst, hb]

theorem tick_round {c : State} {k : AfterPermute} {ir : Fin 24} (hrnd : c.rnd = BitVec.ofNat 5 ir.val)
    (hir : ir.val ≠ 23) :
    tick q ⟨c, some (.permuting k)⟩ = .next ⟨roundStep c ir, some (.permuting k)⟩ := by
  have hround : roundIndex c.rnd = some ir := hrnd ▸ roundIndex_ofNat ir
  simp [tick, hrst, hround, hir]

theorem tick_last_round {c : State} {k : AfterPermute} {ir : Fin 24} (hrnd : c.rnd = BitVec.ofNat 5 ir.val)
    (hir : ir.val = 23) :
    tick q ⟨c, some (.permuting k)⟩ = .next ⟨k.finish { roundStep c ir with rnd := 0 }, none⟩ := by
  have hround : roundIndex c.rnd = some ir := hrnd ▸ roundIndex_ofNat ir
  simp [tick, hrst, hround, hir]

end tick

-- The rounds

/-- The rounds PERMUTE has still to apply when RND is `n` (R31, R104). -/
def roundsFrom (n : Nat) : List (Fin 24) := (List.finRange 24).drop n

theorem roundsFrom_eq_cons (ir : Fin 24) : roundsFrom ir.val = ir :: roundsFrom (ir.val + 1) := by
  simp [roundsFrom, List.drop_eq_getElem_cons]

/-- Before round 23 has run the command is in its permutation, with no response. -/
theorem ticks_during_rounds {l : List Pins} {c : State} {k : AfterPermute} {n : Nat} (hrst : ∀ q ∈ l, q.rst = false)
    (hrnd : c.rnd = BitVec.ofNat 5 n) (hn : n + l.length < 24) (hrsp : c.rsp = none) :
    ∃ c', ticks l ⟨c, some (.permuting k)⟩ = .next ⟨c', some (.permuting k)⟩ ∧ c'.rsp = none := by
  induction l generalizing c n with
  | nil => exact ⟨c, rfl, hrsp⟩
  | cons q l ih =>
    obtain ⟨hq, hl⟩ := List.forall_mem_cons.1 hrst
    rw [List.length_cons] at hn
    rw [ticks_cons (tick_round hq (ir := ⟨n, by omega⟩) hrnd (by simp only; omega))]
    exact ih hl (n := n + 1) rfl (by omega) hrsp

/-- As many ticks as there are rounds left apply them all and end the command. -/
theorem ticks_all_rounds {l : List Pins} {c : State} {k : AfterPermute} {ir : Fin 24}
    (hrst : ∀ q ∈ l, q.rst = false) (hrnd : c.rnd = BitVec.ofNat 5 ir.val) (hlen : ir.val + l.length = 24) :
    ticks l ⟨c, some (.permuting k)⟩ =
      .next ⟨k.finish { (roundsFrom ir.val).foldl roundStep c with rnd := 0 }, none⟩ := by
  induction l generalizing c ir with
  | nil => exact absurd hlen (Nat.ne_of_lt ir.isLt)
  | cons q l ih =>
    obtain ⟨hq, hl⟩ := List.forall_mem_cons.1 hrst
    rw [List.length_cons] at hlen
    rw [roundsFrom_eq_cons, List.foldl_cons]
    by_cases hlast : ir.val = 23
    · obtain rfl : l = [] := List.eq_nil_of_length_eq_zero (by omega)
      rw [ticks_cons (tick_last_round hq hrnd hlast), hlast]
      rfl
    · rw [ticks_cons (tick_round hq hrnd hlast)]
      exact ih hl (ir := ⟨ir.val + 1, by omega⟩) rfl (by simp only; omega)

/-- 24 ticks from RND 0 are PERMUTE and the end of the command. -/
theorem ticks_permute {l : List Pins} {u : State} {k : AfterPermute} (hrst : ∀ q ∈ l, q.rst = false)
    (hlen : l.length = 24) :
    ticks l ⟨{ u with rnd := 0 }, some (.permuting k)⟩ = .next ⟨k.finish (permute u), none⟩ :=
  ticks_all_rounds (ir := 0) hrst rfl (by simpa using hlen)

-- The whole command

theorem outputs_in_progress {c : State} (j : Job) (h : c.rsp = none) :
    (⟨c, some j⟩ : PortState).outputs.busy = true ∧ (⟨c, some j⟩ : PortState).outputs.cmdReady = false ∧
      (⟨c, some j⟩ : PortState).outputs.rspValid = false :=
  ⟨rfl, rfl, by simp [PortState.outputs, outputsWhen, h]⟩

/-- Acceptance clears the response of the command before (R80). -/
theorem ticks_accept (w : Word) (l : List Pins) (s : State) :
    ticks (⟨false, true, w⟩ :: l) ⟨s, none⟩ = ticks l ⟨waitForHost s, some (.accepted w)⟩ := rfl

/-- Settles O54: a command that runs no permutation ends at its first tick; one that does takes a tick to XOR its bytes
in and 24 for the rounds. -/
theorem pinsRefineTheCommand : Obligations.PinsRefineTheCommand := by
  intro w s t ht
  rw [← runCommand_waitForHost] at ht
  have haccepted := outputs_in_progress (.accepted w) (waitForHost_rsp s)
  cases hb : commandBeforePermute (decode w) (waitForHost s) with
  | none =>
    refine ⟨1, by decide, by decide, fun later hlen hrst => ?_⟩
    obtain ⟨q, rfl⟩ := List.length_eq_one_iff.1 hlen
    have hq : q.rst = false := hrst q List.mem_cons_self
    refine ⟨?_, fun m hm => ?_⟩
    · rw [ticks_accept, ticks_cons (tick_completes hq hb ht)]
      rfl
    · obtain rfl : m = 0 := by omega
      exact ⟨_, rfl, haccepted⟩
  | some before =>
    obtain ⟨u, k⟩ := before
    obtain rfl : k.finish (permute u) = t := by
      simpa [runCommand, execCommand_of_beforePermute hb] using ht
    refine ⟨25, by decide, by decide, fun later hlen hrst => ?_⟩
    obtain ⟨q, rounds, rfl⟩ := List.exists_cons_of_length_eq_add_one hlen
    obtain ⟨hq, hrounds⟩ := List.forall_mem_cons.1 hrst
    refine ⟨?_, fun m hm => ?_⟩
    · rw [ticks_accept, ticks_cons (tick_starts_permute hq hb)]
      exact ticks_permute hrounds (by simpa using hlen)
    · cases m with
      | zero => exact ⟨_, rfl, haccepted⟩
      | succ m =>
        have htaken : ∀ q ∈ rounds.take m, q.rst = false := fun q hmem => hrounds q (List.mem_of_mem_take hmem)
        have hshort : 0 + (rounds.take m).length < 24 := by rw [List.length_take]; omega
        obtain ⟨c, hc, hrsp⟩ := ticks_during_rounds (c := { u with rnd := 0 }) (k := k) htaken rfl hshort
          (commandBeforePermute_rsp hb)
        refine ⟨⟨c, some (.permuting k)⟩, ?_, outputs_in_progress _ hrsp⟩
        rw [List.take_succ_cons, ticks_accept, ticks_cons (tick_starts_permute hq hb)]
        exact hc

end Sys2Proof.Machine
end

