-- ==== Sys2Proof/Proofs/Issue.lean ====
section
/-! PROOFS. Issuing command words against the machine's steps (20_memory.md R58; 30_encoding.md R80): no command reads the
host's inputs to come, so a step at a command word is the issue of that word, and a run is the issue of its words. -/

namespace Sys2Proof.Machine

-- The inputs to come are read and written by no command (log entry 1)

/-- The state with other inputs to come. -/
def State.withInputs (s : State) (l : List PortEvent) : State := { s with inputs := l }

section inputsToCome
variable (s : State) (l : List PortEvent)

@[simp] theorem State.withInputs_phase : (s.withInputs l).phase = s.phase := rfl

@[simp] theorem respond_withInputs (v : Byte) : respond v (s.withInputs l) = (respond v s).withInputs l := rfl

@[simp] theorem raiseError_withInputs (e : ErrorCode) :
    raiseError e (s.withInputs l) = (raiseError e s).withInputs l := rfl

@[simp] theorem startInvocation_withInputs (d : DigestSize) :
    startInvocation d (s.withInputs l) = (startInvocation d s).withInputs l := rfl

@[simp] theorem ratePointer_withInputs : ratePointer (s.withInputs l) = ratePointer s := rfl

@[simp] theorem digestPointer_withInputs : digestPointer (s.withInputs l) = digestPointer s := rfl

@[simp] theorem memRead_withInputs (j : StateAddr) : memRead j (s.withInputs l) = memRead j s := rfl

@[simp] theorem permute_withInputs : permute (s.withInputs l) = (permute s).withInputs l := by
  rw [permute_eq, permute_eq]
  rfl

@[simp] theorem openSqueeze_withInputs : openSqueeze (s.withInputs l) = (openSqueeze s).withInputs l := rfl

@[simp] theorem injectPadding_withInputs (d : DigestSize) (p : StateAddr) :
    injectPadding d p (s.withInputs l) = (injectPadding d p s).withInputs l := rfl

@[simp] theorem absorbByte_withInputs (d : DigestSize) (p : StateAddr) (v : Byte) :
    absorbByte d p v (s.withInputs l) = (absorbByte d p v s).withInputs l := by
  have hxor : xorByte p v (s.withInputs l) = (xorByte p v s).withInputs l := rfl
  by_cases hlast : p = d.lastRateByte
  · rw [absorbByte_of_last v hlast, absorbByte_of_last v hlast, hxor, permute_withInputs]
    rfl
  · rw [absorbByte_of_not_last v hlast, absorbByte_of_not_last v hlast]
    rfl

@[simp] theorem afterSqueeze_withInputs (d : DigestSize) (p : StateAddr) :
    afterSqueeze d p (s.withInputs l) = (afterSqueeze d p s).withInputs l := by
  by_cases hlast : p.val = d.bytes - 1
  · rw [afterSqueeze_of_last hlast, afterSqueeze_of_last hlast]
    rfl
  · rw [afterSqueeze_of_not_last hlast, afterSqueeze_of_not_last hlast]
    rfl

variable {s} {t : State}

theorem execAbsorb_withInputs {v : Byte} (h : execAbsorb v s = .next t) :
    execAbsorb v (s.withInputs l) = .next (t.withInputs l) := by
  obtain ⟨hf, rfl⟩ | ⟨hf, ha, rfl⟩ | ⟨ha, d, p, hp, rfl⟩ := execAbsorb_cases h
  · simp [execAbsorb, unlessFaulted, hf]
  · simp [execAbsorb, unlessFaulted, hf, ha]
  · simp [execAbsorb, unlessFaulted, ha, hp]

theorem execFinal_withInputs (h : execFinal s = .next t) :
    execFinal (s.withInputs l) = .next (t.withInputs l) := by
  obtain ⟨hf, rfl⟩ | ⟨hf, ha, rfl⟩ | ⟨ha, d, p, hp, rfl⟩ := execFinal_cases h
  · simp [execFinal, unlessFaulted, hf]
  · simp [execFinal, unlessFaulted, hf, ha]
  · simp [execFinal, unlessFaulted, ha, hp]

theorem execSqueeze_withInputs (h : execSqueeze s = .next t) :
    execSqueeze (s.withInputs l) = .next (t.withInputs l) := by
  obtain ⟨hf, rfl⟩ | ⟨hd, rfl⟩ | ⟨hi | ha, rfl⟩ | ⟨hq, d, p, hp, rfl⟩ := execSqueeze_cases h
  · simp [execSqueeze, unlessFaulted, hf]
  · simp [execSqueeze, unlessFaulted, hd]
  · simp [execSqueeze, unlessFaulted, hi]
  · simp [execSqueeze, unlessFaulted, ha]
  · simp [execSqueeze, unlessFaulted, hq, hp]

theorem execIllegal_withInputs {w : Word} (h : execIllegal w s = .next t) :
    execIllegal w (s.withInputs l) = .next (t.withInputs l) := by
  obtain ⟨hf, rfl⟩ | ⟨hf, rfl⟩ := execIllegal_cases h
  · simp [execIllegal, unlessFaulted, hf]
  · simp [execIllegal, unlessFaulted, hf]

/-- A command that completes does so whatever inputs are to come, and leaves them to come. -/
theorem runCommand_withInputs {w : Word} (h : runCommand w s = .next t) :
    runCommand w (s.withInputs l) = .next (t.withInputs l) := by
  obtain ⟨_, hw, rfl⟩ | ⟨hw, rfl⟩ | ⟨hw, rfl⟩ | ⟨hw, rfl⟩ | ⟨v, hw, hx⟩ | ⟨hw, hx⟩ | ⟨hw, hx⟩ | ⟨_, hw, hx⟩ :=
    runCommand_cases h <;> rw [runCommand, hw]
  · rfl
  · rfl
  · rfl
  · rfl
  · exact execAbsorb_withInputs l hx
  · exact execFinal_withInputs l hx
  · exact execSqueeze_withInputs l hx
  · exact execIllegal_withInputs l hx

end inputsToCome

-- Issuing one word and several

/-- A word is issued exactly when its command completes with a response. -/
theorem issue_eq_some {w r : Word} {s t : State} :
    issue w s = some (t, r) ↔ runCommand w s = .next t ∧ t.rsp = some r := by
  unfold issue
  cases runCommand w s with
  | next t' =>
    simp only [Option.map_eq_some_iff, Prod.mk.injEq, Host.Outcome.next.injEq]
    constructor
    · rintro ⟨_, hr, rfl, rfl⟩
      exact ⟨rfl, hr⟩
    · rintro ⟨rfl, hr⟩
      exact ⟨r, hr, rfl, rfl⟩
  | fault _ | refused _ => simp

/-- Words are issued one after another exactly when the first is issued and the others from the state it leaves. -/
theorem issueAll_cons_eq_some {w : Word} {ws rs : List Word} {s u : State} :
    issueAll (w :: ws) s = some (u, rs) ↔
      ∃ t r rs', issue w s = some (t, r) ∧ issueAll ws t = some (u, rs') ∧ rs = r :: rs' := by
  rw [issueAll]
  cases issue w s with
  | none => simp
  | some first =>
    obtain ⟨t, r⟩ := first
    cases hrest : issueAll ws t with
    | none => simp [hrest]
    | some others => simp [hrest, Prod.ext_iff, eq_comm]

-- The steps of a schedule

theorem step_command (w : Word) (l : List PortEvent) (s : State) :
    step (s.withInputs (.command w :: l)) = runCommand w (s.withInputs l) := rfl

theorem run_succ_of_step {k : Nat} {s t : State} (h : step s = .next t) :
    Sys2Proof.core.run (k + 1) s = Sys2Proof.core.run k t := by
  have hcore : Sys2Proof.core.step s = .next t := h
  simp only [Host.Core.run, hcore]

/-- The words that can be issued from a state are run by as many steps when they stand at the front of the inputs. -/
theorem run_of_issueAll {ws rs : List Word} {s u : State} (rest : List PortEvent) (h : issueAll ws s = some (u, rs)) :
    Sys2Proof.core.run ws.length (s.withInputs (ws.map .command ++ rest)) = .next (u.withInputs rest) := by
  induction ws generalizing s rs with
  | nil =>
    cases h
    rfl
  | cons w ws ih =>
    obtain ⟨t, r, rs', hw, hws, -⟩ := issueAll_cons_eq_some.1 h
    obtain ⟨hrun, -⟩ := issue_eq_some.1 hw
    have hstep : step (s.withInputs ((w :: ws).map .command ++ rest)) =
        .next (t.withInputs (ws.map .command ++ rest)) := by
      rw [List.map_cons, List.cons_append, step_command]
      exact runCommand_withInputs _ hrun
    rw [List.length_cons, run_succ_of_step hstep]
    exact ih hws

/-- Settles O53, by induction on the words: the first step issues the first word, whose command neither reads nor writes
the inputs to come. -/
theorem stepsFollowTheIssuedCommands : Obligations.StepsFollowTheIssuedCommands := by
  intro ws rest s u rs hin h
  have hs : s = s.withInputs (ws.map .command ++ rest) := by rw [← hin]; rfl
  rw [hs]
  exact run_of_issueAll rest h

end Sys2Proof.Machine
end

