-- ==== Sys2Proof/Proofs/Decoding.lean ====
section
/-! PROOFS. The decoder against the encoder (30_encoding.md R70 to R76): a word is the pair of its fields, each well-formed
command has one word, and every word is that of the command it decodes to. -/

namespace Sys2Proof

-- The fields of a word

@[simp] theorem opField_formatC (op imm : Byte) : opField (formatC op imm) = op :=
  BitVec.extractLsb'_append_eq_left

@[simp] theorem immField_formatC (op imm : Byte) : immField (formatC op imm) = imm :=
  BitVec.extractLsb'_append_eq_right

theorem toNat_opField (w : Word) : (opField w).toNat = w.toNat / 256 := by
  simp only [opField, BitVec.extractLsb'_toNat, Nat.shiftRight_eq_div_pow]
  omega

theorem toNat_immField (w : Word) : (immField w).toNat = w.toNat % 256 := by
  simp [immField]

theorem opField_eq_iff {w : Word} {op : Byte} : opField w = op ↔ w.toNat / 256 = op.toNat := by
  rw [← BitVec.toNat_inj, toNat_opField]

theorem immField_eq_iff {w : Word} {imm : Byte} : immField w = imm ↔ w.toNat % 256 = imm.toNat := by
  rw [← BitVec.toNat_inj, toNat_immField]

/-- A word is its two fields, and nothing else (R70). -/
theorem formatC_eq_iff {op imm : Byte} {w : Word} : formatC op imm = w ↔ op = opField w ∧ imm = immField w := by
  constructor
  · rintro rfl
    simp
  · rintro ⟨rfl, rfl⟩
    have hword : (formatC (opField w) (immField w)).toNat = w.toNat := by
      rw [formatC, BitVec.toNat_append, ← Nat.shiftLeft_add_eq_or_of_lt (immField w).isLt, toNat_opField,
        toNat_immField, Nat.shiftLeft_eq]
      omega
    exact BitVec.eq_of_toNat_eq hword

/-- The words of R74 (b) and (c), by their fields. -/
theorem isReservedWord_iff {w : Word} : isReservedWord w = true ↔
    ((opField w = 0x00 ∨ opField w = 0x03 ∨ opField w = 0x04) ∧ immField w ≠ 0x00) ∨ 0x05 ≤ (opField w).toNat := by
  simp [isReservedWord, opField_eq_iff, immField_eq_iff, toNat_opField, or_assoc]

theorem wellFormed_startBad_iff {imm : Byte} :
    (Command.startBad imm).wellFormed = true ↔ imm ≠ 0x20 ∧ imm ≠ 0x40 := by
  simp only [Command.wellFormed, Bool.and_eq_true, bne_iff_ne]

-- Decoding the word of a command

theorem decode_startBad {imm : Byte} (h32 : imm ≠ 0x20) (h64 : imm ≠ 0x40) :
    decode (formatC 0x01 imm) = .startBad imm := by
  simp only [decode, opField_formatC, immField_formatC, if_true, if_neg h32, if_neg h64]

theorem decode_absorb (imm : Byte) : decode (encode (.absorb imm)) = .instr (.absorb imm) := by
  simp [decode, encode]

/-- A reserved word meets none of the decoder's tests. -/
theorem decode_reserved {w : Word} (h : isReservedWord w = true) : decode w = .illegal w := by
  have hw := isReservedWord_iff.1 h
  have h1 : opField w ≠ 0x01 := by bv_omega
  have h2 : opField w ≠ 0x02 := by bv_omega
  have h0 : ¬(opField w = 0x00 ∧ immField w = 0x00) := by bv_omega
  have h3 : ¬(opField w = 0x03 ∧ immField w = 0x00) := by bv_omega
  have h4 : ¬(opField w = 0x04 ∧ immField w = 0x00) := by bv_omega
  simp only [decode, if_neg h1, if_neg h2, if_neg h0, if_neg h3, if_neg h4]

/-- Decoding undoes encoding on every well-formed command. -/
theorem decode_word {c : Command} (h : c.wellFormed = true) : decode c.word = c := by
  cases c with
  | instr i =>
    cases i with
    | absorb imm => exact decode_absorb imm
    | nop | start256 | start512 | final | squeeze => rfl
  | startBad imm =>
    obtain ⟨h32, h64⟩ := wellFormed_startBad_iff.1 h
    exact decode_startBad h32 h64
  | illegal w => exact decode_reserved h

/-- Every word is the word of a well-formed command: the opcode, and where it is not enough the operand, says of which. -/
theorem exists_wellFormed_word (w : Word) : ∃ c : Command, c.wellFormed = true ∧ c.word = w := by
  by_cases hr : isReservedWord w = true
  · exact ⟨.illegal w, hr, rfl⟩
  have hcases : opField w = 0x01 ∨ opField w = 0x02 ∨
      ((opField w = 0x00 ∨ opField w = 0x03 ∨ opField w = 0x04) ∧ immField w = 0x00) := by
    rw [isReservedWord_iff] at hr
    bv_omega
  obtain hop | hop | ⟨hop | hop | hop, himm⟩ := hcases
  · by_cases h32 : immField w = 0x20
    · exact ⟨.instr .start256, rfl, formatC_eq_iff.2 ⟨hop.symm, h32.symm⟩⟩
    by_cases h64 : immField w = 0x40
    · exact ⟨.instr .start512, rfl, formatC_eq_iff.2 ⟨hop.symm, h64.symm⟩⟩
    exact ⟨.startBad (immField w), wellFormed_startBad_iff.2 ⟨h32, h64⟩, formatC_eq_iff.2 ⟨hop.symm, rfl⟩⟩
  · exact ⟨.instr (.absorb (immField w)), rfl, formatC_eq_iff.2 ⟨hop.symm, rfl⟩⟩
  · exact ⟨.instr .nop, rfl, formatC_eq_iff.2 ⟨hop.symm, himm.symm⟩⟩
  · exact ⟨.instr .final, rfl, formatC_eq_iff.2 ⟨hop.symm, himm.symm⟩⟩
  · exact ⟨.instr .squeeze, rfl, formatC_eq_iff.2 ⟨hop.symm, himm.symm⟩⟩

/-- What a word decodes to: the one well-formed command it is the word of. -/
theorem decode_eq_iff {w : Word} {c : Command} : decode w = c ↔ c.wellFormed = true ∧ c.word = w := by
  constructor
  · obtain ⟨c', hwf, rfl⟩ := exists_wellFormed_word w
    rw [decode_word hwf]
    rintro rfl
    exact ⟨hwf, rfl⟩
  · rintro ⟨hwf, rfl⟩
    exact decode_word hwf

theorem Instr.wellFormed_eq_true (i : Instr) : i.wellFormed = true := by cases i <;> rfl

theorem decode_eq_instr_iff {w : Word} {i : Instr} : decode w = .instr i ↔ encode i = w :=
  decode_eq_iff.trans (and_iff_right i.wellFormed_eq_true)

theorem decode_eq_startBad_iff {w : Word} {imm : Byte} :
    decode w = .startBad imm ↔ opField w = 0x01 ∧ immField w = imm ∧ imm ≠ 0x20 ∧ imm ≠ 0x40 := by
  rw [decode_eq_iff, wellFormed_startBad_iff, Command.word, formatC_eq_iff]
  tauto

theorem decode_eq_illegal_iff {w v : Word} : decode w = .illegal v ↔ isReservedWord w = true ∧ v = w :=
  decode_eq_iff.trans (and_congr_left fun (h : v = w) => by rw [Command.wellFormed, h])

/-- Settles O8: a well-formed command is decoded from its word, and there is one for every word. -/
theorem decodeAndEncodeAreInverse : Obligations.DecodeAndEncodeAreInverse :=
  ⟨fun _ hc => decode_word hc, fun _ => decode_eq_iff.1 rfl, fun _ _ => decode_eq_instr_iff.2 rfl⟩

/-- Settles O7: each word is built from the fields of the command it stands for. -/
theorem sampleWordsDecode : Obligations.SampleWordsDecode := by
  unfold Obligations.SampleWordsDecode
  decide

-- The rows of Table 30-2

theorem encode_accepted_by_own_row (i : Instr) : Laws.TableRow.Statement i := by
  cases i with
  | nop => exact Laws.TableRow.nop
  | start256 => exact Laws.TableRow.start256
  | start512 => exact Laws.TableRow.start512
  | absorb imm => exact Laws.TableRow.absorb imm
  | final => exact Laws.TableRow.final
  | squeeze => exact Laws.TableRow.squeeze

theorem opField_and_mask (w : Word) : opField (w &&& 0xFF00) = opField w := by
  rw [opField, BitVec.extractLsb'_and]
  exact BitVec.and_allOnes

/-- The mask `0xFFFF` selects the one word of the row, the mask `0xFF00` the words with the row's opcode (R72). -/
theorem exists_encode_of_accepts {w : Word} {r : OpcodeRow} (hr : r ∈ opcodeTable) (h : r.accepts w = true) :
    ∃ i : Instr, encode i = w ∧ i.mnemonic = r.mnemonic := by
  have hword : w &&& r.mask = r.bits := beq_iff_eq.1 h
  simp only [opcodeTable, List.mem_cons, List.not_mem_nil, or_false] at hr
  obtain rfl | rfl | rfl | rfl | rfl | rfl := hr
  · exact ⟨.nop, hword.symm.trans BitVec.and_allOnes, rfl⟩
  · exact ⟨.start256, hword.symm.trans BitVec.and_allOnes, rfl⟩
  · exact ⟨.start512, hword.symm.trans BitVec.and_allOnes, rfl⟩
  · have hop : opField w = 0x02 := (opField_and_mask w).symm.trans (congrArg opField hword)
    exact ⟨.absorb (immField w), formatC_eq_iff.2 ⟨hop.symm, rfl⟩, rfl⟩
  · exact ⟨.final, hword.symm.trans BitVec.and_allOnes, rfl⟩
  · exact ⟨.squeeze, hword.symm.trans BitVec.and_allOnes, rfl⟩

/-- The mnemonic names the row. -/
theorem row_eq_of_mnemonic_eq : ∀ r ∈ opcodeTable, ∀ r' ∈ opcodeTable, r.mnemonic = r'.mnemonic → r = r' := by
  decide

/-- Settles O9: a word that a row accepts encodes an instruction with the row's mnemonic, and no word encodes two. -/
theorem tableRowsAreDisjointAndSelect : Obligations.TableRowsAreDisjointAndSelect := by
  refine ⟨fun w r r' hr hr' hw hw' => ?_, fun w r hr hw => ?_, fun w i hi => ?_⟩
  · obtain ⟨i, hi, hm⟩ := exists_encode_of_accepts hr hw
    obtain ⟨i', hi', hm'⟩ := exists_encode_of_accepts hr' hw'
    have hsame : i = i' := by
      have hdec := (decode_eq_instr_iff.2 hi).symm.trans (decode_eq_instr_iff.2 hi')
      exact Command.instr.inj hdec
    exact row_eq_of_mnemonic_eq r hr r' hr' (by rw [← hm, ← hm', hsame])
  · obtain ⟨i, hi, hm⟩ := exists_encode_of_accepts hr hw
    exact ⟨i, decode_eq_instr_iff.2 hi, hm⟩
  · obtain ⟨r, hr, -, hw⟩ := encode_accepted_by_own_row i
    exact ⟨r, hr, by rwa [decode_eq_instr_iff.1 hi] at hw⟩

end Sys2Proof
end

