-- ==== Sys2Proof/Proofs/WordCounts.lean ====
section
/-! PROOFS. The sizes of the decoder's classes (30_encoding.md R74): each class is a set of numbers below 65536 that the
opcode and the operand bound, and the count is the size of that set. -/

namespace Sys2Proof

-- The classes as sets of numbers

/-- The words of the instructions: the five without an operand and ABSORB's 256. -/
def instrWords : Finset Nat := {0x0000, 0x0120, 0x0140, 0x0300, 0x0400} ∪ Finset.Ico 0x0200 0x0300

/-- The words with opcode 0x01 but for the two legal sizes. -/
def startBadWords : Finset Nat := Finset.Ico 0x0100 0x0200 \ {0x0120, 0x0140}

/-- The words with opcode 0x00, 0x03 or 0x04 but for those with operand 0. -/
def lowIllegalWords : Finset Nat := (Finset.Ico 0x0000 0x0100 ∪ Finset.Ico 0x0300 0x0500) \ {0x0000, 0x0300, 0x0400}

/-- The words with opcode 0x05 or above. -/
def highIllegalWords : Finset Nat := Finset.Ico 0x0500 0x10000

theorem mem_instrWords {n : Nat} : n ∈ instrWords ↔
    n = 0x0000 ∨ n = 0x0120 ∨ n = 0x0140 ∨ n = 0x0300 ∨ n = 0x0400 ∨ (0x0200 ≤ n ∧ n < 0x0300) := by
  simp [instrWords]

theorem mem_startBadWords {n : Nat} : n ∈ startBadWords ↔ (0x0100 ≤ n ∧ n < 0x0200) ∧ n ≠ 0x0120 ∧ n ≠ 0x0140 := by
  simp [startBadWords]

theorem mem_lowIllegalWords {n : Nat} : n ∈ lowIllegalWords ↔
    (n < 0x0100 ∨ (0x0300 ≤ n ∧ n < 0x0500)) ∧ n ≠ 0x0000 ∧ n ≠ 0x0300 ∧ n ≠ 0x0400 := by
  simp [lowIllegalWords]

theorem mem_highIllegalWords {n : Nat} : n ∈ highIllegalWords ↔ 0x0500 ≤ n ∧ n < 0x10000 := Finset.mem_Ico

theorem card_instrWords : instrWords.card = 261 := by
  simp [instrWords]

theorem card_startBadWords : startBadWords.card = 254 := by
  rw [startBadWords, Finset.card_sdiff_of_subset (by simp [Finset.subset_iff])]
  simp

theorem card_lowIllegalWords : lowIllegalWords.card = 765 := by
  have hdisj : Disjoint (Finset.Ico 0x0000 0x0100) (Finset.Ico 0x0300 0x0500) :=
    (Finset.Ico_disjoint_Ico_consecutive 0x0000 0x0100 0x0500).mono_right (Finset.Ico_subset_Ico_left (by decide))
  rw [lowIllegalWords, Finset.card_sdiff_of_subset (by simp [Finset.subset_iff]), Finset.card_union_of_disjoint hdisj]
  simp

theorem card_highIllegalWords : highIllegalWords.card = 64256 := Nat.card_Ico _ _

-- Which words each class has

theorem Command.isStartBad_iff {c : Command} : c.isStartBad = true ↔ ∃ imm, c = .startBad imm := by
  cases c <;> simp [Command.isStartBad]

theorem isStartBad_decode_iff {w : Word} : (decode w).isStartBad = true ↔ w.toNat ∈ startBadWords := by
  have hfields : (decode w).isStartBad = true ↔ opField w = 0x01 ∧ immField w ≠ 0x20 ∧ immField w ≠ 0x40 := by
    simp only [Command.isStartBad_iff, decode_eq_startBad_iff]
    constructor
    · rintro ⟨imm, hop, rfl, hsize⟩
      exact ⟨hop, hsize⟩
    · rintro ⟨hop, hsize⟩
      exact ⟨immField w, hop, rfl, hsize⟩
  rw [hfields, mem_startBadWords]
  simp only [ne_eq, opField_eq_iff, immField_eq_iff, BitVec.reduceToNat]
  omega

theorem decode_eq_illegal_self_iff {w : Word} :
    decode w = .illegal w ↔ w.toNat ∈ lowIllegalWords ∨ w.toNat ∈ highIllegalWords := by
  have hw := w.isLt
  rw [decode_eq_illegal_iff, isReservedWord_iff, mem_lowIllegalWords, mem_highIllegalWords]
  simp only [ne_eq, opField_eq_iff, immField_eq_iff, toNat_opField, BitVec.reduceToNat, and_true]
  omega

/-- An instruction is what is neither START.BAD nor ILLEGAL. -/
theorem isInstr_decode_iff {w : Word} : (decode w).isInstr = true ↔ w.toNat ∈ instrWords := by
  have hw := w.isLt
  have hrest : (decode w).isInstr = true ↔ ¬(decode w).isStartBad = true ∧ ¬decode w = .illegal w := by
    cases hc : decode w with
    | instr i => simp [Command.isInstr, Command.isStartBad]
    | startBad imm => simp [Command.isInstr, Command.isStartBad]
    | illegal v => simp [Command.isInstr, (decode_eq_illegal_iff.1 hc).2]
  rw [hrest, isStartBad_decode_iff, decode_eq_illegal_self_iff, mem_instrWords, mem_startBadWords, mem_lowIllegalWords,
    mem_highIllegalWords]
  omega

-- Counting

/-- Counting the words with a property is taking the size of the set of their numbers. -/
theorem countP_words_eq_card {p : Nat → Bool} {S : Finset Nat} (hS : ∀ n ∈ S, n < 65536)
    (h : ∀ n, n < 65536 → (p n = true ↔ n ∈ S)) : (List.range 65536).countP p = S.card := by
  have hfilter : (Finset.range 65536).filter (p · = true) = S := by
    ext n
    rw [Finset.mem_filter, Finset.mem_range]
    exact ⟨fun ⟨hn, hp⟩ => (h n hn).1 hp, fun hn => ⟨hS n hn, (h n (hS n hn)).2 hn⟩⟩
  rw [← hfilter, ← Nat.count_eq_card_filter_range]
  simp only [Nat.count, Bool.decide_eq_true]

/-- Settles O10: the four classes are the four sets, of the stated sizes; the bound 0x0500 tells the two sets of ILLEGAL
words apart. -/
theorem decodeClassesHaveTheStatedSizes : Obligations.DecodeClassesHaveTheStatedSizes := by
  have hnat : ∀ n, n < 65536 → (BitVec.ofNat 16 n).toNat = n := fun n hn => Nat.mod_eq_of_lt hn
  refine ⟨?_, ?_, ?_, ?_⟩
  · rw [← card_instrWords]
    refine countP_words_eq_card (fun n hn => ?_) (fun n hn => ?_)
    · rw [mem_instrWords] at hn
      omega
    · rw [isInstr_decode_iff, hnat n hn]
  · rw [← card_startBadWords]
    refine countP_words_eq_card (fun n hn => ?_) (fun n hn => ?_)
    · rw [mem_startBadWords] at hn
      omega
    · rw [isStartBad_decode_iff, hnat n hn]
  · rw [← card_lowIllegalWords]
    refine countP_words_eq_card (fun n hn => ?_) (fun n hn => ?_)
    · rw [mem_lowIllegalWords] at hn
      omega
    · rw [Bool.and_eq_true, decide_eq_true_iff, decide_eq_true_iff, decode_eq_illegal_self_iff, hnat n hn,
        mem_lowIllegalWords, mem_highIllegalWords]
      omega
  · rw [← card_highIllegalWords]
    refine countP_words_eq_card (fun n hn => ?_) (fun n hn => ?_)
    · exact (mem_highIllegalWords.1 hn).2
    · rw [Bool.and_eq_true, decide_eq_true_iff, decide_eq_true_iff, decode_eq_illegal_self_iff, hnat n hn,
        mem_lowIllegalWords, mem_highIllegalWords]
      omega

end Sys2Proof
end

