-- ==== Sys2Proof/Proofs/Responses.lean ====
section
/-! PROOFS. What an accepted command word does and answers (30_encoding.md R73, R74, R80; 60_exceptions.md R184): the step
executes the decoded command, an ILLEGAL word raises, and the response is `{ERR, data}`. -/

namespace Sys2Proof.Machine

-- Fetching

theorem step_of_inputs {s : State} {w : Word} {rest : List PortEvent} (h : s.inputs = .command w :: rest) :
    step s = execCommand (decode w) { s with inputs := rest } := by
  simp only [step, h, runCommand]

/-- Settles O4: the step executes the decoded command, whose class says which of the three meanings it has. -/
theorem stepRunsTheDecodedCommand : Obligations.StepRunsTheDecodedCommand := by
  intro s w rest hin
  rw [step_of_inputs hin]
  refine ⟨fun i hw => ?_, fun imm hw => ?_, fun v hw => ?_⟩ <;> rw [hw] <;> rfl

theorem portWord_toNat (w : Word) : portWord 16 w.toNat = w :=
  BitVec.eq_of_toNat_eq (by simp [portWord, w.isLt])

/-- Settles O5: the word placed at the front is the one the step takes, and what is left is the state it was placed in. -/
theorem fetchWordRunsNext : Obligations.FetchWordRunsNext := by
  intro s w
  rw [State.withFetchWord, portWord_toNat]
  rfl

-- ILLEGAL

theorem raiseError_eq (e : ErrorCode) (s : State) :
    raiseError e s = { s with err := e.code, phase := .fault, rsp := some (formatR e.code 0x00) } := rfl

/-- Settles O30: the words of R74 (b) and (c) are the reserved ones, which decode to ILLEGAL. -/
theorem illegalWordsFault : Obligations.IllegalWordsFault := by
  intro w s hs hw
  have hdec : decode w = .illegal w := decode_reserved (isReservedWord_iff.2 hw)
  have hexec : execIllegal w s = .next (raiseError .illegalCmd s) := unlessFaulted_eq_next.2 (.inr ⟨hs, rfl⟩)
  rw [runCommand, hdec, execCommand, hexec, raiseError_eq]
  rfl

-- The response word

@[simp] theorem statusField_formatR (status data : Byte) : statusField (formatR status data) = status :=
  BitVec.extractLsb'_append_eq_left

@[simp] theorem dataField_formatR (status data : Byte) : dataField (formatR status data) = data :=
  BitVec.extractLsb'_append_eq_right

theorem respond_rsp_err (v : Byte) (s : State) : (respond v s).rsp = some (formatR (respond v s).err v) := rfl

section response
variable {w : Word} {s t : State}

/-- Every command responds with ERR as it leaves it, and only a SQUEEZE in phase SQUEEZE with other data than 0x00. -/
theorem commandEffect_rsp (h : CommandEffect w s t) : ∃ data, t.rsp = some (formatR t.err data) ∧
    (data ≠ 0x00 → decode w = .instr .squeeze ∧ s.phase = .squeeze) := by
  cases h with
  | squeezed d p hw hs hp => exact ⟨memRead p s, rfl, fun _ => ⟨hw, hs⟩⟩
  | unchanged | absorbed | finished => exact ⟨0x00, respond_rsp_err _ _, fun hdata => absurd rfl hdata⟩
  | raised e => exact ⟨0x00, raiseError_rsp e s, fun hdata => absurd rfl hdata⟩
  | started d hw => exact ⟨0x00, startInvocation_rsp d s, fun hdata => absurd rfl hdata⟩

/-- A SQUEEZE that completes in phase SQUEEZE responds with the byte at PTR (R131). -/
theorem runCommand_squeeze_rsp (hw : decode w = .instr .squeeze) (hs : s.phase = .squeeze)
    (h : runCommand w s = .next t) : ∃ d p, digestPointer s = .ok (d, p) ∧ t.rsp = some (formatR s.err (memRead p s)) := by
  rw [runCommand, hw] at h
  obtain ⟨hf, -⟩ | ⟨hd, -⟩ | ⟨hi | ha, -⟩ | ⟨-, d, p, hp, rfl⟩ := execSqueeze_cases h
  · simp [hs] at hf
  · simp [hs] at hd
  · simp [hs] at hi
  · simp [hs] at ha
  · exact ⟨d, p, hp, by simp⟩

end response

/-- Settles O39: the kind of next state gives the status and says when the data can be non-zero; the digest address is
PTR, which gives the digest byte. -/
theorem responseCarriesErrAndDigestByte : Obligations.ResponseCarriesErrAndDigestByte := by
  refine ⟨fun status data => ⟨statusField_formatR status data, dataField_formatR status data⟩, fun w s t h => ?_⟩
  obtain ⟨data, hrsp, hdata⟩ := commandEffect_rsp (runCommand_effect h)
  refine ⟨formatR t.err data, hrsp, statusField_formatR _ _, ?_, fun hw hs p hptr => ?_⟩
  · rwa [dataField_formatR]
  · obtain ⟨d, p', hp', hrsp'⟩ := runCommand_squeeze_rsp hw hs h
    obtain ⟨-, hptr', -⟩ := digestPointer_eq_ok.1 hp'
    have hsame : p = p' := Fin.ext (hptr.trans hptr'.symm)
    have hword : formatR t.err data = formatR s.err (memRead p' s) := Option.some.inj (hrsp.symm.trans hrsp')
    rw [hword, dataField_formatR, hsame, memRead]

end Sys2Proof.Machine
end

