-- ==== Sys2Proof/Proofs/StepMappings.lean ====
section
/-! PROOFS. The five step mappings lane by lane (40_permutation_engine.md R92 to R101): what each lane of the output is,
and the tables against their generators. -/

namespace Sys2Proof.Machine

-- THETA

@[simp] theorem Lanes.get_theta (a : Lanes) (x y : Fin 5) : a.theta.get x y = a.get x y ^^^ a.thetaD x :=
  Lanes.get_ofFn _ x y

/-- A column's parity depends on that column only. -/
theorem Lanes.parity_congr {a b : Lanes} {x : Fin 5} (h : ∀ y, a.get x y = b.get x y) : a.parity x = b.parity x := by
  simp only [Lanes.parity, h]

@[simp] theorem Lanes.thetaD_zero (x : Fin 5) : Lanes.zero.thetaD x = 0 := by
  simp [Lanes.thetaD, Lanes.parity, rotl64]

/-- The two columns THETA mixes into column `x` are others than `x`. -/
theorem thetaD_columns_ne : ∀ x : Fin 5, x + 4 ≠ x ∧ x + 1 ≠ x := by decide

/-- Settles O15: the lane rule is the definition, and `D[x]` reads the columns x-1 and x+1 only. -/
theorem thetaXorsTheNeighbourParities : Obligations.ThetaXorsTheNeighbourParities := by
  refine ⟨Lanes.get_theta, Lanes.ext_get fun x y => ?_, fun a b x h => ?_⟩
  · simp
  · obtain ⟨hprev, hnext⟩ := thetaD_columns_ne x
    rw [Lanes.thetaD, Lanes.thetaD, Lanes.parity_congr fun y => h (x + 4) y hprev,
      Lanes.parity_congr fun y => h (x + 1) y hnext]

-- RHO

@[simp] theorem Lanes.get_rho (a : Lanes) (x y : Fin 5) : a.rho.get x y = rotl64 (a.get x y) (rhoOff x y) :=
  Lanes.get_ofFn _ x y

/-- Table 40-1 keeps to the amounts R10 allows. -/
theorem rhoOff_le_63 : ∀ x y : Fin 5, rhoOff x y ≤ 63 := by decide

/-- Table 40-1 holds the offset the walk of R96 gives at each time. -/
theorem rhoOff_rhoWalk : ∀ t < 24, rhoOff (rhoWalk t).1 (rhoWalk t).2 = rhoWalkOffset t := by decide

/-- The walk of R96 meets every position but `(0, 0)`. -/
theorem exists_rhoWalk_eq : ∀ x y : Fin 5, ¬(x = 0 ∧ y = 0) → ∃ t, t < 24 ∧ rhoWalk t = (x, y) := by decide

/-- Settles O16: Table 40-1 agrees with the walk at all 24 times, and a rotation by 0 is no move. -/
theorem rhoRotatesByTheWalkOffsets : Obligations.RhoRotatesByTheWalkOffsets := by
  refine ⟨fun a => Lanes.get_rho a 0 0, fun a t ht => ?_, exists_rhoWalk_eq, rhoOff_le_63⟩
  rw [Lanes.get_rho, rhoOff_rhoWalk t ht, rhoWalkOffset]

-- PI

@[simp] theorem Lanes.get_pi (a : Lanes) (x y : Fin 5) : a.pi.get x y = a.get (x + 3 * y) x := Lanes.get_ofFn _ x y

/-- The two forms of R97 undo each other: lane `(x, y)` comes from the position that moves to `(x, y)`. -/
theorem pi_source_of_target : ∀ x y : Fin 5, y + 3 * (2 * x + 3 * y) = x := by decide

theorem pi_target_of_source : ∀ x y : Fin 5, 2 * (x + 3 * y) + 3 * x = y := by decide

/-- The form of R97 that says where each input lane goes. -/
theorem Lanes.get_pi_target (a : Lanes) (x y : Fin 5) : a.pi.get y (2 * x + 3 * y) = a.get x y := by
  rw [Lanes.get_pi, pi_source_of_target]

/-- Table 40-2 is R97 by lane index. -/
theorem getElem?_piSrc (j : Fin 25) : piSrc[j.val]? = some (laneIndex (laneX j + 3 * laneY j) (laneX j)) := by
  decide +revert

theorem getElem?_piDst (i : Fin 25) : piDst[i.val]? = some (laneIndex (laneY i) (2 * laneX i + 3 * laneY i)) := by
  decide +revert

/-- PI is undone by reading each lane from where it went. -/
theorem Lanes.pi_bijective : Function.Bijective Lanes.pi := by
  refine ⟨fun a b h => Lanes.ext_get fun x y => ?_, fun b => ⟨.ofFn fun x y => b.get y (2 * x + 3 * y), ?_⟩⟩
  · rw [← Lanes.get_pi_target a, h, Lanes.get_pi_target b]
  · exact Lanes.ext_get fun x y => by rw [Lanes.get_pi, Lanes.get_ofFn, pi_target_of_source]

theorem pi_fixed_iff : ∀ x y : Fin 5, (y = x ∧ 2 * x + 3 * y = y) ↔ (x = 0 ∧ y = 0) := by decide

/-- Settles O17: both tables hold the lane index of the position the formula gives, and the two forms of the formula
undo each other. -/
theorem piPermutesTheLanes : Obligations.PiPermutesTheLanes := by
  refine ⟨fun a x y => ⟨a.get_pi_target x y, a.get_pi x y⟩,
    fun a j => ⟨_, _, getElem?_piSrc j, getElem?_piDst j, ?_, ?_⟩, pi_fixed_iff, Lanes.pi_bijective⟩
  · rw [Lanes.lane_laneIndex, Lanes.lane, Lanes.get_pi]
  · rw [Lanes.lane_laneIndex, Lanes.get_pi_target, Lanes.lane]

-- CHI

@[simp] theorem Lanes.get_chi (a : Lanes) (x y : Fin 5) :
    a.chi.get x y = a.get x y ^^^ (~~~(a.get (x + 1) y) &&& a.get (x + 2) y) := Lanes.get_ofFn _ x y

/-- Settles O18: the complement is the XOR with ones, and in a row of equal lanes every lane combines with itself. -/
theorem chiCombinesEachRow : Obligations.ChiCombinesEachRow := by
  refine ⟨fun a x y => ?_, fun a y h x => ?_, fun a y h x => ?_⟩
  · rw [Lanes.get_chi, ← BitVec.allOnes_xor]
    rfl
  · simp [h]
  · simp [h]

-- IOTA

@[simp] theorem Lanes.get_iota (a : Lanes) (ir : Fin 24) (x y : Fin 5) :
    (a.iota ir).get x y = if x = 0 ∧ y = 0 then a.get 0 0 ^^^ rc ir else a.get x y := Lanes.get_set a 0 0 x y _

/-- Table 40-3 holds the constants the register of R101 generates: its 24 words compared bit by bit. -/
theorem getLsbD_rc : ∀ (ir : Fin 24) (b : Nat), b < 64 →
    (rc ir).getLsbD b = (List.range 7).any fun j => b == 2 ^ j - 1 && rcBit (j + 7 * ir.val) := by
  decide +kernel

/-- Settles O19: the write of IOTA, and Table 40-3 bit by bit. -/
theorem iotaXorsTheGeneratedConstant : Obligations.IotaXorsTheGeneratedConstant :=
  ⟨fun a ir x y h => (a.get_iota ir x y).trans (if_neg h), fun a ir => a.get_iota ir 0 0, getLsbD_rc⟩

end Sys2Proof.Machine
end

