-- ==== Sys2Proof/Proofs/Rounds.lean ====
section
/-! PROOFS. The rounds in order, PERMUTE and the published example (40_permutation_engine.md R102 to R104). -/

namespace Sys2Proof.Machine

/-- The state after the first `n` rounds of KECCAK_F (R103). -/
def Lanes.afterRounds (a : Lanes) (n : Nat) : Lanes := ((List.finRange 24).take n).foldl Lanes.round a

theorem Lanes.afterRounds_succ (a : Lanes) (ir : Fin 24) :
    a.afterRounds (ir.val + 1) = (a.afterRounds ir.val).round ir := by
  have hir : (List.finRange 24)[ir.val]? = some ir := by simp
  rw [Lanes.afterRounds, List.take_add_one, hir, Option.toList_some, List.foldl_concat, Lanes.afterRounds]

theorem Lanes.afterRounds_24 (a : Lanes) : a.afterRounds 24 = a.keccakF := by
  rw [Lanes.afterRounds, List.take_of_length_le (by simp), Lanes.keccakF]

/-- Settles O20: the sequence is the states after 0, 1, ..., 24 rounds. -/
theorem keccakFRunsTheRoundsInOrder : Obligations.KeccakFRunsTheRoundsInOrder :=
  ⟨fun _ _ => rfl, fun a => ⟨a.afterRounds, rfl, a.afterRounds_succ, a.afterRounds_24⟩⟩

/-- Settles O21: a run of rounds changes the lanes and RND only, and PERMUTE ends with RND at 0. -/
theorem permuteAppliesKeccakFAndNothingElse : Obligations.PermuteAppliesKeccakFAndNothingElse := permute_eq

/-- Settles O22: the 24 rounds of the zero state, evaluated. -/
theorem keccakFOfTheZeroState : Obligations.KeccakFOfTheZeroState := by
  unfold Obligations.KeccakFOfTheZeroState
  decide +kernel

end Sys2Proof.Machine
end

