-- ==== Sys2Proof/Proofs/Bijection.lean ====
section
/-! PROOFS. KECCAK_F is a bijection (40_permutation_engine.md R106): each step mapping is injective, so a round is, so
KECCAK_F is, and on a finite set that is enough. The one with an idea behind it is THETA, whose effect on the column
parities is inverted by squaring it. -/

namespace Sys2Proof.Machine

/-- Two lanes with the same 64 bits are the same lane. -/
theorem Lane.ext_bits {u v : Lane} (h : ∀ i : Fin 64, u.getLsbD i.val = v.getLsbD i.val) : u = v :=
  BitVec.eq_of_getLsbD_eq fun i hi => h ⟨i, hi⟩

-- RHO

/-- A rotation loses no bit (R105). -/
theorem rotl64_injective {n : Nat} (hn : n ≤ 63) : Function.Injective (rotl64 · n) := by
  intro u v h
  refine Lane.ext_bits fun i => ?_
  have hi : i.val ≤ 63 := Nat.le_of_lt_succ i.isLt
  rw [← getLsbD_rotl64_add_mod u hn hi, ← getLsbD_rotl64_add_mod v hn hi]
  exact congrArg (BitVec.getLsbD · ((i.val + n) % 64)) h

theorem Lanes.rho_injective : Function.Injective Lanes.rho := by
  intro a b h
  refine Lanes.ext_get fun x y => rotl64_injective (rhoOff_le_63 x y) ?_
  simpa using congrArg (Lanes.get · x y) h

-- CHI

/-- The inverse of CHI, which reads all five lanes of a row. -/
def Lanes.chiInv (a : Lanes) : Lanes :=
  .ofFn fun x y => a.get x y ^^^
    (~~~(a.get (x + 1) y) &&& (a.get (x + 2) y ^^^ (~~~(a.get (x + 3) y) &&& a.get (x + 4) y)))

/-- CHI undone on one bit of each lane of a row: the 32 rows of five bits. -/
theorem chi_row_inverse : ∀ b₀ b₁ b₂ b₃ b₄ : Bool,
    ((b₀ ^^ (!b₁ && b₂)) ^^ (!(b₁ ^^ (!b₂ && b₃)) &&
      ((b₂ ^^ (!b₃ && b₄)) ^^ (!(b₃ ^^ (!b₄ && b₀)) && (b₄ ^^ (!b₀ && b₁)))))) = b₀ := by decide

theorem Lanes.chiInv_chi : Function.LeftInverse Lanes.chiInv Lanes.chi := by
  intro a
  refine Lanes.ext_get fun x y => Lane.ext_bits fun i => ?_
  have hrow := chi_row_inverse ((a.get x y).getLsbD i) ((a.get (x + 1) y).getLsbD i) ((a.get (x + 2) y).getLsbD i)
    ((a.get (x + 3) y).getLsbD i) ((a.get (x + 4) y).getLsbD i)
  simpa [Lanes.chiInv, add_assoc] using hrow

-- IOTA

theorem Lanes.iota_involutive (ir : Fin 24) : Function.Involutive (Lanes.iota · ir) := by
  intro a
  refine Lanes.ext_get fun x y => ?_
  by_cases h : x = 0 ∧ y = 0
  · obtain ⟨rfl, rfl⟩ := h
    simp
  · simp [h]

-- THETA

/-- The column parities of a state, by column and bit. -/
def Lanes.parityBits (a : Lanes) (x : Fin 5) (i : Fin 64) : Bool := (a.parity x).getLsbD i.val

/-- What THETA does to the column parities, for `d = 1` and `n = 1`: to each parity are added that of the column `d`
before it and that of the column `d` after it, the latter rotated by `n`. -/
def mixColumns (d : Fin 5) (n : Fin 64) (c : Fin 5 → Fin 64 → Bool) (x : Fin 5) (i : Fin 64) : Bool :=
  c x i ^^ (c (x - d) i ^^ c (x + d) (i - n))

theorem xor_pairs_cancel : ∀ p q r s t u : Bool,
    ((p ^^ (q ^^ r)) ^^ ((q ^^ (s ^^ t)) ^^ (r ^^ (t ^^ u)))) = (p ^^ (s ^^ u)) := by decide

/-- Squaring doubles both steps: the mixed terms come in pairs and cancel. -/
theorem mixColumns_mixColumns (d : Fin 5) (n : Fin 64) (c : Fin 5 → Fin 64 → Bool) :
    mixColumns d n (mixColumns d n c) = mixColumns (d + d) (n + n) c := by
  funext x i
  simp only [mixColumns, sub_add_cancel, add_sub_cancel_right, sub_sub, add_assoc, xor_pairs_cancel]

/-- Two families of parities that one mixing takes together are taken together by its square. -/
theorem mixColumns_double {d d' : Fin 5} {n n' : Fin 64} {c e : Fin 5 → Fin 64 → Bool}
    (h : mixColumns d n c = mixColumns d n e) (hd : d + d = d') (hn : n + n = n') :
    mixColumns d' n' c = mixColumns d' n' e := by
  rw [← hd, ← hn, ← mixColumns_mixColumns, h, mixColumns_mixColumns]

/-- Without a rotation the square is also the inverse: modulo 5, three columns on is two columns back. -/
theorem mixColumns_double_mixColumns (d : Fin 5) (c : Fin 5 → Fin 64 → Bool) :
    mixColumns (d + d) 0 (mixColumns d 0 c) = c := by
  have hback : ∀ x d : Fin 5, x - (d + d) - d = x + (d + d) := by decide
  have hforth : ∀ x d : Fin 5, x + (d + d) + d = x - (d + d) := by decide
  have hback' : ∀ x d : Fin 5, x - (d + d) + d = x - d := by decide
  have hforth' : ∀ x d : Fin 5, x + (d + d) - d = x + d := by decide
  have hpairs : ∀ p q r s t : Bool, ((p ^^ (q ^^ r)) ^^ ((s ^^ (t ^^ q)) ^^ (t ^^ (r ^^ s)))) = p := by decide
  funext x i
  simp only [mixColumns, sub_zero, hback, hforth, hback', hforth', hpairs]

/-- Squared six times, the mixing of THETA has the rotation by 64, which is none, and is inverted by one more square. -/
theorem mixColumns_injective : Function.Injective (mixColumns 1 1) := by
  intro c e h
  have h2 : mixColumns 2 2 c = mixColumns 2 2 e := mixColumns_double h rfl rfl
  have h4 : mixColumns 4 4 c = mixColumns 4 4 e := mixColumns_double h2 rfl rfl
  have h8 : mixColumns 3 8 c = mixColumns 3 8 e := mixColumns_double h4 rfl rfl
  have h16 : mixColumns 1 16 c = mixColumns 1 16 e := mixColumns_double h8 rfl rfl
  have h32 : mixColumns 2 32 c = mixColumns 2 32 e := mixColumns_double h16 rfl rfl
  have h64 : mixColumns 4 0 c = mixColumns 4 0 e := mixColumns_double h32 rfl rfl
  have hinv : ∀ f, mixColumns 3 0 (mixColumns 4 0 f) = f := mixColumns_double_mixColumns 4
  rw [← hinv c, h64, hinv]

/-- The five lanes of a column each get `D[x]`, so its parity does. -/
theorem Lanes.parity_theta (a : Lanes) (x : Fin 5) : a.theta.parity x = a.parity x ^^^ a.thetaD x := by
  refine BitVec.eq_of_getLsbD_eq fun i _ => ?_
  have hfive : ∀ b₀ b₁ b₂ b₃ b₄ d : Bool, ((b₀ ^^ d) ^^ (b₁ ^^ d) ^^ (b₂ ^^ d) ^^ (b₃ ^^ d) ^^ (b₄ ^^ d)) =
      ((b₀ ^^ b₁ ^^ b₂ ^^ b₃ ^^ b₄) ^^ d) := by decide
  simp only [Lanes.parity, Lanes.get_theta, BitVec.getLsbD_xor, hfive]

/-- Bit `i` of a lane rotated by one is bit `i - 1` of the lane, indices modulo 64. -/
theorem getLsbD_rotl64_one (v : Lane) (i : Fin 64) : (rotl64 v 1).getLsbD i.val = v.getLsbD (i - 1).val := by
  have hpos : ((i - 1).val + 1) % 64 = i.val := congrArg Fin.val (sub_add_cancel i 1)
  rw [← getLsbD_rotl64_add_mod v (n := 1) (by decide) (Nat.le_of_lt_succ (i - 1).isLt), hpos]

/-- On the column parities THETA is the mixing with both steps 1 (R92). -/
theorem Lanes.parityBits_theta (a : Lanes) : a.theta.parityBits = mixColumns 1 1 a.parityBits := by
  have hprev : ∀ x : Fin 5, x + 4 = x - 1 := by decide
  funext x i
  simp only [Lanes.parityBits, mixColumns, Lanes.parity_theta, Lanes.thetaD, BitVec.getLsbD_xor, getLsbD_rotl64_one,
    hprev]

/-- THETA is injective: its output determines the column parities, and these determine what it added to each lane. -/
theorem Lanes.theta_injective : Function.Injective Lanes.theta := by
  intro a b h
  have hbits : a.parityBits = b.parityBits :=
    mixColumns_injective (by rw [← Lanes.parityBits_theta, h, Lanes.parityBits_theta])
  have hparity : ∀ x, a.parity x = b.parity x := fun x => Lane.ext_bits fun i => congrFun (congrFun hbits x) i
  refine Lanes.ext_get fun x y => ?_
  have hlane : a.get x y ^^^ a.thetaD x = b.get x y ^^^ b.thetaD x := by
    rw [← Lanes.get_theta, h, Lanes.get_theta]
  rwa [Lanes.thetaD, Lanes.thetaD, hparity, hparity, BitVec.xor_left_inj] at hlane

-- KECCAK_F

theorem Lanes.round_injective (ir : Fin 24) : Function.Injective (Lanes.round · ir) :=
  (Lanes.iota_involutive ir).injective.comp <| Lanes.chiInv_chi.injective.comp <|
    Lanes.pi_bijective.injective.comp <| Lanes.rho_injective.comp Lanes.theta_injective

theorem Lanes.keccakF_injective : Function.Injective Lanes.keccakF := by
  suffices h : ∀ l : List (Fin 24), Function.Injective fun a : Lanes => l.foldl Lanes.round a from h _
  intro l
  induction l with
  | nil => exact Function.injective_id
  | cons ir l ih => exact ih.comp (Lanes.round_injective ir)

/-- There are finitely many states (R22). -/
theorem Lanes.finite : Finite Lanes := by
  have hlane : Finite Lane := Finite.of_injective BitVec.toFin fun _ _ => BitVec.eq_of_toFin_eq
  exact Finite.of_injective Lanes.get fun a b h => Lanes.ext_get fun x y => congrFun (congrFun h x) y

/-- Settles O23: each step mapping is injective, and an injective map of a finite set to itself is a bijection. -/
theorem keccakFIsABijection : Obligations.KeccakFIsABijection :=
  have := Lanes.finite
  Finite.injective_iff_bijective.1 Lanes.keccakF_injective

end Sys2Proof.Machine
end

