-- ==== Sys2Proof/Proofs/XorByte.lean ====
section
/-! PROOFS. 41_sponge_controller.md R123: XORBYTE is the byte write of the byte's own value XORed with the operand, so
its laws are those of `setByte` and of XOR. -/

namespace Sys2Proof.Machine

/-- XORing a byte into a lane is writing the XOR to that byte, bit by bit. -/
theorem Lanes.xorByte_eq_setByte (a : Lanes) (j : StateAddr) (v : Byte) :
    a.xorByte j v = a.setByte j (a.byte j ^^^ v) := by
  unfold Lanes.xorByte Lanes.setByte
  congr 1
  refine Lane.ext_bytes fun k b hk hb => ?_
  have hown : (a.byte j).getLsbD b = (a.lane (laneOf j)).getLsbD (8 * (j.val % 8) + b) := a.getLsbD_byte j hb
  rw [bitOf, getLsbD_replace_byte _ _ hk hb, BitVec.getLsbD_xor, getLsbD_byte_shiftLeft _ hk hb]
  by_cases hkm : k = j.val % 8
  · simp [hkm, hown]
  · simp [hkm]

theorem Lanes.byte_xorByte (a : Lanes) (j i : StateAddr) (v : Byte) :
    (a.xorByte j v).byte i = if i = j then a.byte j ^^^ v else a.byte i := by
  rw [Lanes.xorByte_eq_setByte, Lanes.byte_setByte]

@[simp] theorem Lanes.byte_xorByte_same (a : Lanes) (j : StateAddr) (v : Byte) :
    (a.xorByte j v).byte j = a.byte j ^^^ v := by rw [Lanes.byte_xorByte, if_pos rfl]

theorem Lanes.byte_xorByte_of_ne (a : Lanes) {j i : StateAddr} (h : i ≠ j) (v : Byte) :
    (a.xorByte j v).byte i = a.byte i := by rw [Lanes.byte_xorByte, if_neg h]

theorem Lanes.lane_xorByte (a : Lanes) (j : StateAddr) (v : Byte) (i : Fin 25) :
    (a.xorByte j v).lane i = if i = laneOf j then a.lane i ^^^ (v.setWidth 64 <<< bitOf j) else a.lane i := by
  rw [Lanes.xorByte, Lanes.lane_setLane]
  split
  · next h => rw [h]
  · rfl

@[simp] theorem Lanes.xorByte_zero (a : Lanes) (j : StateAddr) : a.xorByte j 0x00 = a := by
  refine Lanes.ext_byte fun i => ?_
  by_cases hi : i = j
  · simp [hi]
  · exact a.byte_xorByte_of_ne hi _

theorem Lanes.xorByte_xorByte (a : Lanes) (j : StateAddr) (u v : Byte) :
    (a.xorByte j u).xorByte j v = a.xorByte j (u ^^^ v) := by
  refine Lanes.ext_byte fun i => ?_
  by_cases hi : i = j
  · simp [hi, BitVec.xor_assoc]
  · simp only [Lanes.byte_xorByte_of_ne _ hi]

theorem xorByte_eq (j : StateAddr) (v : Byte) (s : State) :
    xorByte j v s = { s with lanes := s.lanes.setByte j (s.lanes.byte j ^^^ v) } := by
  rw [xorByte, Lanes.xorByte_eq_setByte]

/-- Settles O12: XORBYTE is a byte write, which gives the state and byte forms; the lane form is its definition, and the
last two laws hold byte by byte. -/
theorem xorByteChangesOneByte : Obligations.XorByteChangesOneByte := by
  refine ⟨xorByte_eq, Lanes.byte_xorByte, fun a j v i => ?_, Lanes.xorByte_zero, Lanes.xorByte_xorByte⟩
  simp only [Lanes.lane_xorByte, Fin.ext_iff, laneOf, bitOf]

end Sys2Proof.Machine
end

