-- ==== Sys2Proof/Proofs/Controller.lean ====
section
/-! PROOFS. The sponge controller's commands, each in every phase (41_sponge_controller.md R126 to R132): the next state
each command answers, then that state field by field. FINAL (42_padding_injector.md R153) branches as ABSORB does. -/

namespace Sys2Proof.Machine

-- NOP and the STARTs

/-- Settles O24: NOP is the response alone. -/
theorem nopReportsTheStatus : Obligations.NopReportsTheStatus := fun _ => rfl

theorem startInvocation_flags (d : DigestSize) (s : State) :
    (startInvocation d s).outputs.done = false ∧ (startInvocation d s).outputs.fault = false := ⟨rfl, rfl⟩

/-- Settles O25: both STARTs are `startInvocation`, whose phase ABSORB is neither DONE nor FAULT. -/
theorem startsBeginAFreshInvocation : Obligations.StartsBeginAFreshInvocation := by
  refine fun s => ⟨rfl, rfl, ?_⟩
  rintro t (h | h)
  · obtain rfl : startInvocation .d32 s = t := Host.Outcome.next.inj h
    exact startInvocation_flags .d32 s
  · obtain rfl : startInvocation .d64 s = t := Host.Outcome.next.inj h
    exact startInvocation_flags .d64 s

/-- Settles O26: the two sizes left out are the only operands of opcode 0x01 the decoder accepts. -/
theorem startOfAnotherSizeFaults : Obligations.StartOfAnotherSizeFaults := by
  intro imm s h32 h64
  refine ⟨raiseError .badSize { s with err := 0 }, ?_, rfl, rfl⟩
  rw [runCommand, decode_startBad h32 h64]
  rfl

-- Which branch a command takes

section branches
variable {s : State} {d : DigestSize} {p : StateAddr} {v : Byte}

theorem execAbsorb_of_fault (hf : s.phase = .fault) : execAbsorb v s = .next (respond 0x00 s) := if_pos hf

theorem execAbsorb_of_other_phase (hf : s.phase ≠ .fault) (ha : s.phase ≠ .absorb) :
    execAbsorb v s = .next (raiseError .phase s) := (if_neg hf).trans (if_neg ha)

theorem execAbsorb_of_ratePointer (ha : s.phase = .absorb) (hp : ratePointer s = .ok (d, p)) :
    execAbsorb v s = .next (respond 0x00 (absorbByte d p v s)) := by
  simp [execAbsorb, unlessFaulted, ha, hp]

theorem execFinal_of_fault (hf : s.phase = .fault) : execFinal s = .next (respond 0x00 s) := if_pos hf

theorem execFinal_of_other_phase (hf : s.phase ≠ .fault) (ha : s.phase ≠ .absorb) :
    execFinal s = .next (raiseError .phase s) := (if_neg hf).trans (if_neg ha)

theorem execFinal_of_ratePointer (ha : s.phase = .absorb) (hp : ratePointer s = .ok (d, p)) :
    execFinal s = .next (respond 0x00 (openSqueeze (permute (injectPadding d p s)))) := by
  simp [execFinal, unlessFaulted, ha, hp]

theorem execSqueeze_of_fault (hf : s.phase = .fault) : execSqueeze s = .next (respond 0x00 s) := if_pos hf

theorem execSqueeze_of_done (hd : s.phase = .done) : execSqueeze s = .next (raiseError .overread s) := by
  simp [execSqueeze, unlessFaulted, hd]

theorem execSqueeze_of_idle_or_absorb (h : s.phase = .idle ∨ s.phase = .absorb) :
    execSqueeze s = .next (raiseError .phase s) := by
  obtain hi | ha := h
  · simp [execSqueeze, unlessFaulted, hi]
  · simp [execSqueeze, unlessFaulted, ha]

theorem execSqueeze_of_digestPointer (hq : s.phase = .squeeze) (hp : digestPointer s = .ok (d, p)) :
    execSqueeze s = .next (respond (memRead p s) (afterSqueeze d p s)) := by
  simp [execSqueeze, unlessFaulted, hq, hp]

end branches

-- The registers as the statements give them

section pointers
variable {s : State} {d : DigestSize} {p : StateAddr}

theorem ratePointer_of_lt (hdsz : s.dsz.toNat = d.bytes) (hp : p.val = s.ptr.toNat) (hlt : s.ptr.toNat < d.rate) :
    ratePointer s = .ok (d, p) :=
  ratePointer_eq_ok.2 ⟨BitVec.eq_of_toNat_eq (hdsz.trans d.bytes_eq_toNat_code), hp, hlt⟩

theorem digestPointer_of_lt (hdsz : s.dsz.toNat = d.bytes) (hp : p.val = s.ptr.toNat) (hlt : s.ptr.toNat < d.bytes) :
    digestPointer s = .ok (d, p) :=
  digestPointer_eq_ok.2 ⟨BitVec.eq_of_toNat_eq (hdsz.trans d.bytes_eq_toNat_code), hp, hlt⟩

theorem respond_of_err_zero (herr : s.err = 0x00) (data : Byte) :
    respond data s = { s with rsp := some (formatR 0x00 data) } := by rw [respond, herr]

theorem DigestSize.bytes_pos (d : DigestSize) : 0 < d.bytes := by cases d <;> decide

theorem DigestSize.eq_lastRateByte_iff : p = d.lastRateByte ↔ p.val = d.rate - 1 := Fin.ext_iff

end pointers

-- ABSORB

section absorb
variable {s : State} {d : DigestSize} {p : StateAddr} {v : Byte}

theorem respond_absorbByte_of_not_last (herr : s.err = 0x00) (h : p ≠ d.lastRateByte) :
    respond 0x00 (absorbByte d p v s) = { s with
      lanes := s.lanes.setByte p (s.lanes.byte p ^^^ v), ptr := s.ptr + 1, rsp := some (formatR 0x00 0x00) } := by
  rw [respond_of_err_zero ((absorbByte_err d p v s).trans herr), absorbByte_of_not_last v h, xorByte_eq]

theorem respond_absorbByte_of_last (herr : s.err = 0x00) (h : p = d.lastRateByte) :
    respond 0x00 (absorbByte d p v s) = { s with
      lanes := (s.lanes.setByte p (s.lanes.byte p ^^^ v)).keccakF, ptr := 0, rnd := 0,
      rsp := some (formatR 0x00 0x00) } := by
  rw [respond_of_err_zero ((absorbByte_err d p v s).trans herr), absorbByte_of_last v h, permute_eq, xorByte_eq]
  rfl

end absorb

/-- Settles O27: the phase picks the branch, the registers of R33 give the address PTR, and the block's last byte decides
whether the permutation runs. -/
theorem absorbFollowsItsRule : Obligations.AbsorbFollowsItsRule := by
  intro v s
  refine ⟨execAbsorb_of_fault, fun h => ?_, fun d p ha herr hdsz hp => ?_⟩
  · obtain ⟨hf, ha⟩ : s.phase ≠ .fault ∧ s.phase ≠ .absorb := by rcases h with h | h | h <;> simp [h]
    exact execAbsorb_of_other_phase hf ha
  have hrate : d.rate = 200 - 2 * d.bytes := rfl
  have hpos := d.rate_pos
  refine ⟨fun hlt => ?_, fun hlast => ?_⟩
  · have hne : p ≠ d.lastRateByte := mt DigestSize.eq_lastRateByte_iff.1 (by omega)
    rw [← respond_absorbByte_of_not_last herr hne]
    exact execAbsorb_of_ratePointer ha (ratePointer_of_lt hdsz hp (by omega))
  · have heq : p = d.lastRateByte := DigestSize.eq_lastRateByte_iff.2 (by omega)
    rw [← respond_absorbByte_of_last herr heq]
    exact execAbsorb_of_ratePointer ha (ratePointer_of_lt hdsz hp (by omega))

/-- Settles O31: inside a block ABSORB is XORBYTE at the address and an incremented PTR. -/
theorem absorbStoresOneByte : Obligations.AbsorbStoresOneByte := by
  intro v s t d p ha hp hne h
  obtain rfl : respond 0x00 (absorbByte d p v s) = t :=
    Host.Outcome.next.inj ((execAbsorb_of_ratePointer ha hp).symm.trans h)
  rw [absorbByte_of_not_last v hne]
  exact ⟨s.lanes.byte_xorByte_same p v, fun j hj => s.lanes.byte_xorByte_of_ne hj v, rfl, rfl, rfl, rfl, rfl⟩

-- SQUEEZE

section squeeze
variable {s : State} {d : DigestSize} {p : StateAddr}

theorem respond_afterSqueeze_of_not_last (herr : s.err = 0x00) (h : p.val ≠ d.bytes - 1) :
    respond (memRead p s) (afterSqueeze d p s) = { s with
      ptr := s.ptr + 1, rsp := some (formatR 0x00 (s.lanes.byte p)) } := by
  rw [respond_of_err_zero ((afterSqueeze_err d p s).trans herr), afterSqueeze_of_not_last h, memRead]

theorem respond_afterSqueeze_of_last (herr : s.err = 0x00) (h : p.val = d.bytes - 1) :
    respond (memRead p s) (afterSqueeze d p s) = { s with
      lanes := .zero, ptr := 0, phase := .done, rsp := some (formatR 0x00 (s.lanes.byte p)) } := by
  rw [respond_of_err_zero ((afterSqueeze_err d p s).trans herr), afterSqueeze_of_last h, memRead]

end squeeze

/-- Settles O29: the phase picks the branch, the registers of R33 give the address PTR, and the digest's last byte decides
whether the state is discarded. -/
theorem squeezeFollowsItsRule : Obligations.SqueezeFollowsItsRule := by
  intro s
  refine ⟨execSqueeze_of_fault, execSqueeze_of_done, execSqueeze_of_idle_or_absorb, fun d p hq herr hdsz hp => ?_⟩
  have hpos := d.bytes_pos
  refine ⟨fun hlt => ?_, fun hlast => ?_⟩
  · rw [← respond_afterSqueeze_of_not_last herr (d := d) (by omega)]
    exact execSqueeze_of_digestPointer hq (digestPointer_of_lt hdsz hp (by omega))
  · rw [← respond_afterSqueeze_of_last herr (d := d) (by omega)]
    exact execSqueeze_of_digestPointer hq (digestPointer_of_lt hdsz hp (by omega))

end Sys2Proof.Machine
end

