-- ==== Sys2Proof/Proofs/Capacity.lean ====
section
/-! PROOFS. 41_sponge_controller.md R134: no command writes a byte of the capacity; XORBYTE addresses the rate region only,
and what else changes the lanes is the permutation and zeroing. -/

namespace Sys2Proof.Machine

/-- Two states with the same bytes from `rate` on: the same capacity (R24). -/
def Lanes.sameCapacity (rate : Nat) (a b : Lanes) : Prop := ∀ j : StateAddr, rate ≤ j.val → a.byte j = b.byte j

/-- XORBYTE inside the rate region leaves the capacity. -/
theorem Lanes.sameCapacity_xorByte {rate : Nat} {a b : Lanes} {p : StateAddr} (hp : p.val < rate) (v : Byte)
    (h : a.sameCapacity rate b) : (a.xorByte p v).sameCapacity rate b := by
  intro j hj
  have hne : j ≠ p := fun heq => Nat.not_le_of_lt hp (heq ▸ hj)
  rw [a.byte_xorByte_of_ne hne, h j hj]

/-- The address ABSORB and FINAL use, and the last one of the block, lie in the rate region. -/
theorem ratePointer_lt_rateOf {s : State} {d : DigestSize} {p : StateAddr} (hp : ratePointer s = .ok (d, p)) :
    p.val < rateOf s.dsz.toNat ∧ d.lastRateByte.val < rateOf s.dsz.toNat := by
  obtain ⟨hd, hval, hlt⟩ := ratePointer_eq_ok.1 hp
  rw [hd, ← d.rate_eq_rateOf_code]
  exact ⟨hval ▸ hlt, Nat.sub_one_lt_of_lt hlt⟩

/-- What a command does to the capacity: zeroing, nothing, or the permutation of lanes that have it unchanged. -/
theorem commandEffect_capacity {w : Word} {s t : State} (h : CommandEffect w s t) :
    t.lanes = .zero ∨ t.lanes.sameCapacity (rateOf s.dsz.toNat) s.lanes ∨
      ∃ a : Lanes, t.lanes = a.keccakF ∧ a.sameCapacity (rateOf s.dsz.toNat) s.lanes := by
  have hself : s.lanes.sameCapacity (rateOf s.dsz.toNat) s.lanes := fun _ _ => rfl
  cases h with
  | unchanged | raised => exact .inr (.inl hself)
  | started => exact .inl rfl
  | absorbed v d p _ _ hp =>
    have hxor := Lanes.sameCapacity_xorByte (ratePointer_lt_rateOf hp).1 v hself
    by_cases hlast : p = d.lastRateByte
    · rw [absorbByte_of_last v hlast, permute_eq]
      exact .inr (.inr ⟨_, rfl, hxor⟩)
    · rw [absorbByte_of_not_last v hlast]
      exact .inr (.inl hxor)
  | finished d p _ _ hp =>
    obtain ⟨hptr, hend⟩ := ratePointer_lt_rateOf hp
    rw [permute_eq]
    exact .inr (.inr ⟨_, rfl, Lanes.sameCapacity_xorByte hend _ (Lanes.sameCapacity_xorByte hptr _ hself)⟩)
  | squeezed d p _ _ _ =>
    by_cases hlast : p.val = d.bytes - 1
    · rw [afterSqueeze_of_last hlast]
      exact .inl rfl
    · rw [afterSqueeze_of_not_last hlast]
      exact .inr (.inl hself)

/-- Settles O47: the kind of next state says which of the three it is. -/
theorem capacityChangesOnlyByPermuteOrZeroing : Obligations.CapacityChangesOnlyByPermuteOrZeroing :=
  fun _ _ _ _ h => commandEffect_capacity (runCommand_effect h)

end Sys2Proof.Machine
end

