-- ==== Sys2Proof/Proofs/Fresh.lean ====
section
/-! PROOFS. 41_sponge_controller.md R127, R128; 43_public_hash.md R169: after a START two cores differ in the hidden RND
and the host's inputs to come only, and no command lets either reach another register or a response. -/

namespace Sys2Proof.Machine

-- RND is read by no command (10_state.md R31)

/-- The state with another round counter. -/
def State.withRnd (s : State) (r : BitVec 5) : State := { s with rnd := r }

section roundCounter
variable (s : State) (r : BitVec 5)

theorem respond_withRnd (v : Byte) : respond v (s.withRnd r) = (respond v s).withRnd r := rfl

theorem permute_withRnd : permute (s.withRnd r) = permute s := by
  rw [permute_eq, permute_eq]
  rfl

/-- ABSORB keeps RND inside a block and brings it to 0 with the permutation. -/
theorem absorbByte_withRnd (d : DigestSize) (p : StateAddr) (v : Byte) :
    ∃ r', absorbByte d p v (s.withRnd r) = (absorbByte d p v s).withRnd r' := by
  by_cases hlast : p = d.lastRateByte
  · have hxor : xorByte p v (s.withRnd r) = (xorByte p v s).withRnd r := rfl
    refine ⟨0, ?_⟩
    rw [absorbByte_of_last v hlast, absorbByte_of_last v hlast, hxor, permute_withRnd, permute_eq]
    rfl
  · refine ⟨r, ?_⟩
    rw [absorbByte_of_not_last v hlast, absorbByte_of_not_last v hlast]
    rfl

theorem openSqueeze_permute_withRnd (d : DigestSize) (p : StateAddr) :
    openSqueeze (permute (injectPadding d p (s.withRnd r))) =
      (openSqueeze (permute (injectPadding d p s))).withRnd 0 := by
  rw [permute_eq, permute_eq]
  rfl

theorem afterSqueeze_withRnd (d : DigestSize) (p : StateAddr) :
    afterSqueeze d p (s.withRnd r) = (afterSqueeze d p s).withRnd r := by
  by_cases hlast : p.val = d.bytes - 1
  · rw [afterSqueeze_of_last hlast, afterSqueeze_of_last hlast]
    rfl
  · rw [afterSqueeze_of_not_last hlast, afterSqueeze_of_not_last hlast]
    rfl

variable {s} {t : State}

theorem execAbsorb_withRnd {v : Byte} (h : execAbsorb v s = .next t) :
    ∃ r', execAbsorb v (s.withRnd r) = .next (t.withRnd r') := by
  obtain ⟨hf, rfl⟩ | ⟨hf, ha, rfl⟩ | ⟨ha, d, p, hp, rfl⟩ := execAbsorb_cases h
  · exact ⟨r, execAbsorb_of_fault hf⟩
  · exact ⟨r, execAbsorb_of_other_phase hf ha⟩
  · obtain ⟨r', hr'⟩ := absorbByte_withRnd s r d p v
    refine ⟨r', (execAbsorb_of_ratePointer (s := s.withRnd r) ha hp).trans ?_⟩
    rw [hr', respond_withRnd]

theorem execFinal_withRnd (h : execFinal s = .next t) : ∃ r', execFinal (s.withRnd r) = .next (t.withRnd r') := by
  obtain ⟨hf, rfl⟩ | ⟨hf, ha, rfl⟩ | ⟨ha, d, p, hp, rfl⟩ := execFinal_cases h
  · exact ⟨r, execFinal_of_fault hf⟩
  · exact ⟨r, execFinal_of_other_phase hf ha⟩
  · refine ⟨0, (execFinal_of_ratePointer (s := s.withRnd r) ha hp).trans ?_⟩
    rw [openSqueeze_permute_withRnd, respond_withRnd]

theorem execSqueeze_withRnd (h : execSqueeze s = .next t) :
    ∃ r', execSqueeze (s.withRnd r) = .next (t.withRnd r') := by
  refine ⟨r, ?_⟩
  obtain ⟨hf, rfl⟩ | ⟨hd, rfl⟩ | ⟨hia, rfl⟩ | ⟨hq, d, p, hp, rfl⟩ := execSqueeze_cases h
  · exact execSqueeze_of_fault hf
  · exact execSqueeze_of_done hd
  · exact execSqueeze_of_idle_or_absorb hia
  · rw [execSqueeze_of_digestPointer (s := s.withRnd r) hq hp, afterSqueeze_withRnd]
    rfl

theorem execIllegal_withRnd {w : Word} (h : execIllegal w s = .next t) :
    ∃ r', execIllegal w (s.withRnd r) = .next (t.withRnd r') := by
  obtain ⟨hf, rfl⟩ | ⟨hf, rfl⟩ := execIllegal_cases h
  · exact ⟨r, if_pos hf⟩
  · exact ⟨r, if_neg hf⟩

/-- A command that completes does so whatever RND was, with the same next state but for RND. -/
theorem runCommand_withRnd {w : Word} (h : runCommand w s = .next t) :
    ∃ r', runCommand w (s.withRnd r) = .next (t.withRnd r') := by
  obtain ⟨_, hw, rfl⟩ | ⟨hw, rfl⟩ | ⟨hw, rfl⟩ | ⟨hw, rfl⟩ | ⟨v, hw, hx⟩ | ⟨hw, hx⟩ | ⟨hw, hx⟩ | ⟨_, hw, hx⟩ :=
    runCommand_cases h <;> rw [runCommand, hw]
  · exact ⟨r, rfl⟩
  · exact ⟨r, rfl⟩
  · exact ⟨r, rfl⟩
  · exact ⟨r, rfl⟩
  · exact execAbsorb_withRnd r hx
  · exact execFinal_withRnd r hx
  · exact execSqueeze_withRnd r hx
  · exact execIllegal_withRnd r hx

end roundCounter

-- Issuing words whatever RND and the inputs to come are

/-- Words that can be issued get the same responses whatever RND and the inputs to come are. -/
theorem issueAll_withRnd_withInputs {ws rs : List Word} {s u : State} (r : BitVec 5) (l : List PortEvent)
    (h : issueAll ws s = some (u, rs)) :
    ∃ r', issueAll ws ((s.withRnd r).withInputs l) = some ((u.withRnd r').withInputs l, rs) := by
  induction ws generalizing s rs r with
  | nil =>
    cases h
    exact ⟨r, rfl⟩
  | cons w ws ih =>
    obtain ⟨t, a, as, hw, hws, rfl⟩ := issueAll_cons_eq_some.1 h
    obtain ⟨hrun, hrsp⟩ := issue_eq_some.1 hw
    obtain ⟨r₁, hrun₁⟩ := runCommand_withRnd r hrun
    obtain ⟨r₂, hws₂⟩ := ih r₁ hws
    exact ⟨r₂, issueAll_cons_eq_some.2
      ⟨_, a, as, issue_eq_some.2 ⟨runCommand_withInputs l hrun₁, hrsp⟩, hws₂, rfl⟩⟩

/-- From a state of R33 any words are issued to the end (R221). -/
theorem issueAll_completes (ws : List Word) {s : State} (hs : s.Inv) : ∃ u rs, issueAll ws s = some (u, rs) := by
  induction ws generalizing s with
  | nil => exact ⟨s, [], rfl⟩
  | cons w ws ih =>
    obtain ⟨t, ht⟩ := runCommand_completes w hs
    obtain ⟨u, rs, hu⟩ := ih (commandEffect_inv (runCommand_effect ht) hs)
    exact ⟨u, _, issueAll_cons_eq_some.2 ⟨t, _, rs, issue_eq_some.2 ⟨ht, runCommand_rsp ht⟩, hu, rfl⟩⟩

-- After a START

theorem runCommand_start (d : DigestSize) (s : State) : runCommand (encode d.start) s = .next (startInvocation d s) := by
  cases d <;> rfl

/-- A START leaves the state it leaves after the reset state, but for RND and the inputs to come. -/
theorem startInvocation_eq_reset (d : DigestSize) (s : State) :
    startInvocation d s = ((startInvocation d State.reset).withRnd s.rnd).withInputs s.inputs := rfl

/-- What a START and the words after it do from the reset state they do from every state. -/
theorem issueAll_start_of_reset {d : DigestSize} {ws rs : List Word} {u : State}
    (h : issueAll ws (startInvocation d State.reset) = some (u, rs)) (s : State) :
    ∃ r, issueAll (encode d.start :: ws) s = some ((u.withRnd r).withInputs s.inputs, formatR 0x00 0x00 :: rs) := by
  obtain ⟨r, hr⟩ := issueAll_withRnd_withInputs s.rnd s.inputs h
  rw [← startInvocation_eq_reset] at hr
  exact ⟨r, issueAll_cons_eq_some.2 ⟨_, _, rs, issue_eq_some.2 ⟨runCommand_start d s, rfl⟩, hr, rfl⟩⟩

/-- Settles O48: the words run to the end from the state a START leaves after reset, and so they do, with the same
responses and registers, after a START from either state. -/
theorem startForgetsThePast : Obligations.StartForgetsThePast := by
  intro d ws s t
  obtain ⟨u, rs, hu⟩ := issueAll_completes ws (startInvocation_inv d invariantHoldsAtReset.1)
  obtain ⟨_, hs⟩ := issueAll_start_of_reset hu s
  obtain ⟨_, ht⟩ := issueAll_start_of_reset hu t
  exact ⟨_, _, _, hs, ht, rfl, rfl, rfl, rfl, rfl⟩

end Sys2Proof.Machine
end

