-- ==== Sys2Proof/Proofs/Padding.lean ====
section
/-! PROOFS. The padding injector (42_padding_injector.md R150 to R153): the padding bytes PAD appends to a message, and
FINAL in every phase. -/

namespace Sys2Proof.Machine

-- PAD

/-- The `k` padding bytes of R151: start byte, zeros and final byte, or the two flags on one byte. -/
def padding : Nat → List Byte
  | 0 => []
  | 1 => [0x86]
  | z + 2 => 0x06 :: (List.replicate z 0x00 ++ [0x80])

@[simp] theorem length_padding (k : Nat) : (padding k).length = k := by
  match k with
  | 0 | 1 => rfl
  | z + 2 => simp [padding]

theorem modify_append_add {α : Type} (f : α → α) (i : Nat) (l₁ l₂ : List α) :
    (l₁ ++ l₂).modify (l₁.length + i) f = l₁ ++ l₂.modify i f := List.modifyTailIdx_add _ i l₁ l₂

theorem modify_append_length {α : Type} (f : α → α) (l₁ l₂ : List α) :
    (l₁ ++ l₂).modify l₁.length f = l₁ ++ l₂.modify 0 f := modify_append_add f 0 l₁ l₂

/-- The two ORs of PAD turn the zeros behind a message into its padding. -/
theorem modify_zeros_eq_padding (z : Nat) :
    ((List.replicate (z + 1) 0x00).modify 0 (· ||| padStart)).modify z (· ||| padFinal) = padding (z + 1) := by
  cases z with
  | zero => rfl
  | succ z =>
    have hlast := modify_append_length (· ||| padFinal) (List.replicate z 0x00) [0x00]
    rw [List.length_replicate] at hlast
    rw [List.replicate_succ, List.replicate_succ', List.modify_zero_cons, List.modify_succ_cons]
    exact congrArg _ hlast

/-- The padding fills the block the message ends in, or the one after (R150, R151). -/
theorem paddedLength_eq_add (l : Nat) {r : Nat} (hr : 0 < r) : paddedLength l r = l + (r - l % r) := by
  have hsum : l + 1 + (r - 1) = l + r := by omega
  have hdiv : r * (l / r) + l % r = l := Nat.div_add_mod l r
  have hmod : l % r < r := Nat.mod_lt l hr
  rw [paddedLength, hsum, Nat.add_div_right l hr, Nat.succ_mul, Nat.mul_comm]
  omega

theorem paddedLength_eq_mul (l : Nat) {r : Nat} (hr : 0 < r) : paddedLength l r = (l / r + 1) * r := by
  have hsum : l + 1 + (r - 1) = l + r := by omega
  rw [paddedLength, hsum, Nat.add_div_right l hr]

/-- PAD appends the padding bytes of R151 to the message. -/
theorem pad_eq_append (m : List Byte) {r : Nat} (hr : 0 < r) : pad m r = m ++ padding (r - m.length % r) := by
  obtain ⟨z, hz⟩ : ∃ z, r - m.length % r = z + 1 := Nat.exists_eq_add_one.2 (Nat.sub_pos_of_lt (Nat.mod_lt _ hr))
  have hzeros : m.length + (z + 1) - m.length = z + 1 := Nat.add_sub_cancel_left ..
  simp only [pad, paddedLength_eq_add _ hr, hz, hzeros, modify_append_length]
  exact (modify_append_add _ z m _).trans (congrArg _ (modify_zeros_eq_padding z))

theorem length_pad (m : List Byte) {r : Nat} (hr : 0 < r) : (pad m r).length = (m.length / r + 1) * r := by
  rw [pad_eq_append m hr, List.length_append, length_padding, ← paddedLength_eq_add _ hr, paddedLength_eq_mul _ hr]

/-- Settles O49: PAD is the message and its padding, whose length R151's two cases give. -/
theorem paddingHasTheStatedShape : Obligations.PaddingHasTheStatedShape := by
  intro d m
  have hq : m.length % d.rate < d.rate := Nat.mod_lt _ d.rate_pos
  have htake : (m ++ padding (d.rate - m.length % d.rate)).take m.length = m := List.take_left
  have hdrop : (m ++ padding (d.rate - m.length % d.rate)).drop m.length = padding (d.rate - m.length % d.rate) :=
    List.drop_left
  refine ⟨length_pad m d.rate_pos, ?_, fun h => ?_, fun h => ?_⟩ <;> rw [pad_eq_append m d.rate_pos]
  · exact htake
  · obtain ⟨z, hz⟩ : ∃ z, d.rate - m.length % d.rate = z + 2 := by
      have htwo : 2 ≤ d.rate := by cases d <;> decide
      exact ⟨d.rate - m.length % d.rate - 2, by omega⟩
    rw [hdrop, hz, padding, Nat.add_sub_cancel]
  · have hone : d.rate - m.length % d.rate = 1 := by omega
    rw [hdrop, hone, padding]

-- FINAL

section final
variable {s : State} {d : DigestSize} {p : StateAddr}

/-- The registers and the response after a FINAL that closes the message (R153). -/
theorem respond_openSqueeze (herr : s.err = 0x00) :
    respond 0x00 (openSqueeze (permute (injectPadding d p s))) = { s with
      lanes := ((s.lanes.xorByte p padStart).xorByte d.lastRateByte padFinal).keccakF,
      ptr := 0, phase := .squeeze, rnd := 0, rsp := some (formatR 0x00 0x00) } := by
  have herr' : (openSqueeze (permute (injectPadding d p s))).err = 0x00 := by simpa using herr
  rw [respond_of_err_zero herr', permute_eq]
  rfl

theorem injected_lanes_of_ne (a : Lanes) (h : d.lastRateByte ≠ p) :
    (a.xorByte p padStart).xorByte d.lastRateByte padFinal =
      (a.setByte p (a.byte p ^^^ 0x06)).setByte d.lastRateByte (a.byte d.lastRateByte ^^^ 0x80) := by
  rw [Lanes.xorByte_eq_setByte _ d.lastRateByte, Lanes.byte_xorByte_of_ne a h, Lanes.xorByte_eq_setByte]
  rfl

/-- On one byte the two padding flags are one XOR of 0x86, which shares no bit between them (R153). -/
theorem injected_lanes_of_last (a : Lanes) :
    (a.xorByte d.lastRateByte padStart).xorByte d.lastRateByte padFinal = a.xorByte d.lastRateByte 0x86 :=
  Lanes.xorByte_xorByte a d.lastRateByte padStart padFinal

end final

/-- Settles O28: the phase picks the branch, the registers of R33 give the address PTR, and the two XORs are two byte
writes or one. -/
theorem finalFollowsItsRule : Obligations.FinalFollowsItsRule := by
  intro s
  refine ⟨execFinal_of_fault, fun h => ?_, fun d p e ha herr hdsz hp he => ?_⟩
  · obtain ⟨hf, ha⟩ : s.phase ≠ .fault ∧ s.phase ≠ .absorb := by rcases h with h | h | h <;> simp [h]
    exact execFinal_of_other_phase hf ha
  have hrate : d.rate = 200 - 2 * d.bytes := rfl
  have hpos := d.rate_pos
  obtain rfl : e = d.lastRateByte := DigestSize.eq_lastRateByte_iff.2 he
  have hfinal (hlt : s.ptr.toNat < d.rate) := execFinal_of_ratePointer ha (ratePointer_of_lt hdsz hp hlt)
  refine ⟨fun hlt => ?_, fun hlast => ?_⟩
  · have hne : d.lastRateByte ≠ p := fun h => by
      have hval := DigestSize.eq_lastRateByte_iff.1 h.symm
      omega
    rw [← injected_lanes_of_ne s.lanes hne, ← respond_openSqueeze herr]
    exact hfinal (by omega)
  · obtain rfl : p = d.lastRateByte := DigestSize.eq_lastRateByte_iff.2 (by omega)
    rw [← Lanes.xorByte_eq_setByte, ← injected_lanes_of_last, ← respond_openSqueeze herr]
    exact hfinal (by omega)

end Sys2Proof.Machine
end

