-- ==== Sys2Proof/Proofs/AbsorbAll.lean ====
section
/-! PROOFS. 42_padding_injector.md R154: the ABSORBs of a message and FINAL compute ABSORB_ALL of the padded message.
The message is followed byte by byte: the bytes of the block begun are those already XORed into the lanes. -/

namespace Sys2Proof.Machine

-- A block in the lanes, byte by byte (41_sponge_controller.md R120)

section xorBlock
variable (a : Lanes) (b : List Byte)

@[simp] theorem Lanes.byte_xorBlock (j : StateAddr) : (a.xorBlock b).byte j = a.byte j ^^^ b.getD j.val 0x00 :=
  Lanes.byte_ofBytes _ j

@[simp] theorem Lanes.xorBlock_nil : a.xorBlock [] = a := Lanes.ext_byte fun j => by simp

/-- XORBYTE behind the bytes XORed so far lengthens the block by its byte. -/
theorem Lanes.xorByte_xorBlock {b : List Byte} {j : StateAddr} (hj : j.val = b.length) (v : Byte) :
    (a.xorBlock b).xorByte j v = a.xorBlock (b ++ [v]) := by
  refine Lanes.ext_byte fun i => ?_
  rw [Lanes.byte_xorByte]
  obtain hlt | heq | hgt := Nat.lt_trichotomy i.val b.length
  · have hne : i ≠ j := fun h => by simp [h, hj] at hlt
    rw [if_neg hne, Lanes.byte_xorBlock, Lanes.byte_xorBlock, List.getD_append _ _ _ _ hlt]
  · obtain rfl : i = j := Fin.ext (heq.trans hj.symm)
    simp [hj]
  · have hne : i ≠ j := fun h => by simp [h, hj] at hgt
    have hend : (b ++ [v]).length ≤ i.val := by simpa using hgt
    rw [if_neg hne, Lanes.byte_xorBlock, Lanes.byte_xorBlock, List.getD_eq_default _ _ hgt.le,
      List.getD_eq_default _ _ hend]

/-- Zero padding bytes need no XOR (R124). -/
theorem Lanes.xorBlock_append_zeros (n : Nat) : a.xorBlock (b ++ List.replicate n 0x00) = a.xorBlock b := by
  refine Lanes.ext_byte fun j => ?_
  rw [Lanes.byte_xorBlock, Lanes.byte_xorBlock]
  obtain hlt | hge := Nat.lt_or_ge j.val b.length
  · rw [List.getD_append _ _ _ _ hlt]
  · rw [List.getD_append_right _ _ _ _ hge, List.getD_eq_default b _ hge, List.getD_eq_getElem?_getD,
      List.getElem?_getD_replicate_default_eq]

/-- The two XORs of FINAL complete the block begun as its padding does (R151, R154). -/
theorem Lanes.injected_xorBlock {b : List Byte} {d : DigestSize} {p : StateAddr} (hp : p.val = b.length)
    (hlt : b.length < d.rate) :
    ((a.xorBlock b).xorByte p padStart).xorByte d.lastRateByte padFinal =
      a.xorBlock (b ++ padding (d.rate - b.length)) := by
  by_cases hlast : p = d.lastRateByte
  · have hone : d.rate - b.length = 1 := by
      rw [DigestSize.eq_lastRateByte_iff] at hlast
      omega
    rw [hlast] at hp ⊢
    rw [injected_lanes_of_last, hone, padding, Lanes.xorByte_xorBlock a hp]
  · obtain ⟨z, hz⟩ : ∃ z, d.rate - b.length = z + 2 := by
      rw [DigestSize.eq_lastRateByte_iff] at hlast
      exact ⟨d.rate - b.length - 2, by omega⟩
    have hend : d.lastRateByte.val = (b ++ [padStart] ++ List.replicate z 0x00).length := by
      have hval : d.lastRateByte.val = d.rate - 1 := rfl
      simp only [List.length_append, List.length_singleton, List.length_replicate]
      omega
    rw [hz, padding, Lanes.xorByte_xorBlock a hp, ← Lanes.xorBlock_append_zeros a _ z, Lanes.xorByte_xorBlock a hend]
    simp [padStart, padFinal]

end xorBlock

-- ABSORB_ALL from any lanes, block by block

/-- `ABSORB_ALL(P, R)` begun from the given lanes. -/
def absorbFrom (a : Lanes) (p : List Byte) (r : Nat) : Lanes := absorbBlocks r (p.length / r) p a

theorem absorbAll_eq_absorbFrom (p : List Byte) (r : Nat) : absorbAll p r = absorbFrom .zero p r := rfl

@[simp] theorem absorbFrom_nil (a : Lanes) (r : Nat) : absorbFrom a [] r = a := by simp [absorbFrom, absorbBlocks]

theorem absorbFrom_block_append (a : Lanes) {b : List Byte} {r : Nat} (hr : 0 < r) (hb : b.length = r) (p : List Byte) :
    absorbFrom a (b ++ p) r = absorbFrom (a.xorBlock b).keccakF p r := by
  subst hb
  rw [absorbFrom, List.length_append, Nat.add_div_left _ hr, absorbBlocks, List.take_left, List.drop_left, absorbFrom]

theorem absorbFrom_block (a : Lanes) {b : List Byte} {r : Nat} (hr : 0 < r) (hb : b.length = r) :
    absorbFrom a b r = (a.xorBlock b).keccakF := by
  simpa using absorbFrom_block_append a hr hb []

/-- A whole block in front of a message stands in front of the padded message. -/
theorem pad_block_append {b : List Byte} {r : Nat} (hr : 0 < r) (hb : b.length = r) (m : List Byte) :
    pad (b ++ m) r = b ++ pad m r := by
  rw [pad_eq_append _ hr, pad_eq_append _ hr, List.length_append, hb, Nat.add_mod_left, List.append_assoc]

-- The core inside a message

/-- The core between two ABSORBs: `a` are the lanes after the last permutation, `b` the bytes of the block begun. -/
structure Absorbing (d : DigestSize) (a : Lanes) (b : List Byte) (s : State) : Prop where
  phase : s.phase = .absorb
  dsz : s.dsz = d.code
  err : s.err = 0x00
  ptr : s.ptr.toNat = b.length
  length_lt : b.length < d.rate
  lanes : s.lanes = a.xorBlock b

/-- The core after FINAL: the lanes `a`, and the registers that open the squeeze (R153). -/
def MessageClosed (d : DigestSize) (a : Lanes) (u : State) : Prop :=
  u.lanes = a ∧ u.phase = .squeeze ∧ u.ptr = 0 ∧ u.err = 0x00 ∧ u.dsz = d.code

theorem absorbing_startInvocation (d : DigestSize) (s : State) : Absorbing d .zero [] (startInvocation d s) where
  phase := rfl
  dsz := rfl
  err := rfl
  ptr := rfl
  length_lt := d.rate_pos
  lanes := (Lanes.xorBlock_nil _).symm

namespace Absorbing
variable {d : DigestSize} {a : Lanes} {b : List Byte} {s : State} {p : StateAddr}

theorem exists_ratePointer (h : Absorbing d a b s) : ∃ p, p.val = b.length ∧ ratePointer s = .ok (d, p) :=
  ⟨⟨b.length, h.length_lt.trans_le d.rate_le⟩, rfl, ratePointer_eq_ok.2 ⟨h.dsz, h.ptr.symm, h.ptr ▸ h.length_lt⟩⟩

/-- Inside the block ABSORB adds its byte to the block begun. -/
theorem absorbByte_of_not_last (h : Absorbing d a b s) (hp : p.val = b.length) (hne : p ≠ d.lastRateByte) (v : Byte) :
    Absorbing d a (b ++ [v]) (respond 0x00 (absorbByte d p v s)) := by
  have hlt := h.length_lt
  rw [Ne, DigestSize.eq_lastRateByte_iff] at hne
  rw [Machine.absorbByte_of_not_last v (mt DigestSize.eq_lastRateByte_iff.1 hne)]
  exact {
    phase := h.phase
    dsz := h.dsz
    err := h.err
    ptr := by
      rw [List.length_append, List.length_singleton, ← h.ptr]
      exact toNat_add_one (h.ptr ▸ hlt) d.rate_le
    length_lt := by
      rw [List.length_append, List.length_singleton]
      omega
    lanes := by
      rw [← Lanes.xorByte_xorBlock a hp, ← h.lanes]
      rfl }

/-- The block's last byte runs the permutation and begins the next block. -/
theorem absorbByte_of_last (h : Absorbing d a b s) (hp : p.val = b.length) (hlast : p = d.lastRateByte) (v : Byte) :
    Absorbing d (a.xorBlock (b ++ [v])).keccakF [] (respond 0x00 (absorbByte d p v s)) where
  phase := (absorbByte_phase d p v s).trans h.phase
  dsz := (absorbByte_dsz d p v s).trans h.dsz
  err := (absorbByte_err d p v s).trans h.err
  ptr := by
    rw [Machine.absorbByte_of_last v hlast]
    rfl
  length_lt := d.rate_pos
  lanes := by
    rw [Machine.absorbByte_of_last v hlast, permute_eq, Lanes.xorBlock_nil, ← Lanes.xorByte_xorBlock a hp, ← h.lanes]
    rfl

theorem issue_absorb (h : Absorbing d a b s) (hp : ratePointer s = .ok (d, p)) (v : Byte) :
    issue (encode (.absorb v)) s = some (respond 0x00 (absorbByte d p v s), formatR 0x00 0x00) := by
  refine issue_eq_some.2 ⟨?_, by simp [h.err]⟩
  rw [runCommand, decode_absorb]
  exact execAbsorb_of_ratePointer h.phase hp

/-- FINAL pads the block begun and runs the last permutation. -/
theorem issue_final (h : Absorbing d a b s) :
    ∃ u, issue (encode .final) s = some (u, formatR 0x00 0x00) ∧
      MessageClosed d (absorbFrom a (pad b d.rate) d.rate) u := by
  obtain ⟨p, hp, hrp⟩ := h.exists_ratePointer
  have hpad : pad b d.rate = b ++ padding (d.rate - b.length) := by
    rw [pad_eq_append b d.rate_pos, Nat.mod_eq_of_lt h.length_lt]
  have hlen : (pad b d.rate).length = d.rate := by
    rw [length_pad b d.rate_pos, Nat.div_eq_of_lt h.length_lt, Nat.zero_add, Nat.one_mul]
  have hexec := execFinal_of_ratePointer h.phase hrp
  rw [respond_openSqueeze h.err] at hexec
  refine ⟨_, issue_eq_some.2 ⟨hexec, rfl⟩, ?_, rfl, rfl, h.err, h.dsz⟩
  rw [absorbFrom_block a d.rate_pos hlen, hpad, ← Lanes.injected_xorBlock a hp h.length_lt, ← h.lanes]

/-- The rest of a message and FINAL, by induction on the rest: the block begun stands in front of it. -/
theorem issueAll_absorbN_final (m : List Byte) (h : Absorbing d a b s) :
    ∃ u, issueAll (absorbN m ++ [encode .final]) s = some (u, List.replicate (m.length + 1) (formatR 0x00 0x00)) ∧
      MessageClosed d (absorbFrom a (pad (b ++ m) d.rate) d.rate) u := by
  induction m generalizing a b s with
  | nil =>
    obtain ⟨u, hu, hclosed⟩ := h.issue_final
    rw [List.append_nil]
    exact ⟨u, issueAll_cons_eq_some.2 ⟨u, _, [], hu, rfl, rfl⟩, hclosed⟩
  | cons v m ih =>
    obtain ⟨p, hp, hrp⟩ := h.exists_ratePointer
    have hcons {u : State} {rs : List Word}
        (hu : issueAll (absorbN m ++ [encode .final]) (respond 0x00 (absorbByte d p v s)) = some (u, rs)) :
        issueAll (absorbN (v :: m) ++ [encode .final]) s = some (u, formatR 0x00 0x00 :: rs) :=
      issueAll_cons_eq_some.2 ⟨_, _, rs, h.issue_absorb hrp v, hu, rfl⟩
    have hmove : b ++ v :: m = (b ++ [v]) ++ m := List.append_cons b v m
    rw [hmove]
    by_cases hlast : p = d.lastRateByte
    · have hblock : (b ++ [v]).length = d.rate := by
        have hpos := d.rate_pos
        rw [DigestSize.eq_lastRateByte_iff] at hlast
        rw [List.length_append, List.length_singleton]
        omega
      rw [pad_block_append d.rate_pos hblock, absorbFrom_block_append a d.rate_pos hblock]
      obtain ⟨u, hu, hclosed⟩ := ih (h.absorbByte_of_last hp hlast v)
      exact ⟨u, hcons hu, hclosed⟩
    · obtain ⟨u, hu, hclosed⟩ := ih (h.absorbByte_of_not_last hp hlast v)
      exact ⟨u, hcons hu, hclosed⟩

end Absorbing

/-- A START, the ABSORBs of a message and FINAL complete from any state without an error (R154). -/
theorem issueAll_start_absorbN_final (d : DigestSize) (m : List Byte) (s : State) :
    ∃ u, issueAll (encode d.start :: (absorbN m ++ [encode .final])) s =
        some (u, List.replicate (m.length + 2) (formatR 0x00 0x00)) ∧
      MessageClosed d (absorbAll (pad m d.rate) d.rate) u := by
  rw [absorbAll_eq_absorbFrom]
  obtain ⟨u, hu, hclosed⟩ := (absorbing_startInvocation d s).issueAll_absorbN_final m
  exact ⟨u, issueAll_cons_eq_some.2 ⟨_, _, _, issue_eq_some.2 ⟨runCommand_start d s, rfl⟩, hu, rfl⟩, hclosed⟩

/-- Settles O50: a START begins a message with zero lanes and no byte of a block, and the rest is the message. -/
theorem injectedPaddingEqualsAbsorbAll : Obligations.InjectedPaddingEqualsAbsorbAll := by
  intro d m s
  obtain ⟨u, hu, hclosed⟩ := issueAll_start_absorbN_final d m s
  exact ⟨u, _, hu, hclosed⟩

end Sys2Proof.Machine
end

