-- ==== Sys2Proof/Proofs/PublicHash.lean ====
section
/-! PROOFS. 43_public_hash.md R169 to R171: the SQUEEZEs behind FINAL read the digest and discard the state, so an
invocation computes SHA3_256 or SHA3_512; a host procedure issues the same words while their responses are clean. -/

namespace Sys2Proof.Machine

-- Command words one list after another

theorem issueAll_append {ws ws' rs rs' : List Word} {s t u : State} (h : issueAll ws s = some (t, rs))
    (h' : issueAll ws' t = some (u, rs')) : issueAll (ws ++ ws') s = some (u, rs ++ rs') := by
  induction ws generalizing s rs with
  | nil =>
    cases h
    exact h'
  | cons w ws ih =>
    obtain ⟨t₁, r, rs₁, hw, hws, rfl⟩ := issueAll_cons_eq_some.1 h
    exact issueAll_cons_eq_some.2 ⟨t₁, r, rs₁ ++ rs', hw, ih hws, rfl⟩

-- Clean responses

theorem cleanResponses_cons {r : Word} {rs : List Word} :
    cleanResponses (r :: rs) ↔ statusField r = 0x00 ∧ cleanResponses rs := List.forall_mem_cons

theorem cleanResponses_map_formatR (zs : List Byte) : cleanResponses (zs.map (formatR 0x00)) := by
  intro r hr
  obtain ⟨z, -, rfl⟩ := List.mem_map.1 hr
  exact statusField_formatR 0x00 z

theorem cleanResponses_replicate (n : Nat) : cleanResponses (List.replicate n (formatR 0x00 0x00)) := by
  rw [← List.map_replicate]
  exact cleanResponses_map_formatR _

theorem map_dataField_map_formatR (zs : List Byte) : (zs.map (formatR 0x00)).map dataField = zs := by
  simp [Function.comp_def]

/-- With clean responses the procedure's issuing loop issues every word (R170). -/
theorem issueWhileOk_of_issueAll {ws rs : List Word} {s u : State} (h : issueAll ws s = some (u, rs))
    (hclean : cleanResponses rs) : issueWhileOk ws s = some (u, 0x00) := by
  induction ws generalizing s rs with
  | nil =>
    cases h
    rfl
  | cons w ws ih =>
    obtain ⟨t, r, rs₁, hw, hws, rfl⟩ := issueAll_cons_eq_some.1 h
    obtain ⟨hr, hrs⟩ := cleanResponses_cons.1 hclean
    simp only [issueWhileOk, hw, hr, if_true]
    exact ih hws hrs

/-- With clean responses the squeeze loop writes every data byte behind the bytes `ys` written so far and leaves the rest
of the buffer (R170). -/
theorem squeezeInto_of_issueAll {n : Nat} {rs : List Word} {s u : State} {ys out : List Byte}
    (h : issueAll (squeezeN n) s = some (u, rs)) (hclean : cleanResponses rs) (hroom : n ≤ out.length) :
    squeezeInto n ys.length (ys ++ out) s = some (u, 0x00, ys ++ (rs.map dataField ++ out.drop n)) := by
  induction n generalizing s rs ys out with
  | zero =>
    cases h
    rfl
  | succ n ih =>
    obtain ⟨t, r, rs₁, hw, hws, rfl⟩ := issueAll_cons_eq_some.1 h
    obtain ⟨hr, hrs⟩ := cleanResponses_cons.1 hclean
    obtain ⟨c, out, rfl⟩ := List.exists_cons_of_length_pos (Nat.zero_lt_of_lt hroom)
    have hset : (ys ++ c :: out).set ys.length (dataField r) = (ys ++ [dataField r]) ++ out := by simp
    have hrest := ih (ys := ys ++ [dataField r]) hws hrs (Nat.le_of_succ_le_succ hroom)
    rw [List.length_append, List.length_singleton] at hrest
    simp only [squeezeInto, hw, hr, if_true, hset, hrest]
    simp

-- SQUEEZE by SQUEEZE through the digest (41_sponge_controller.md R131, R132)

/-- The bytes of the digest window from PTR on. -/
def State.digestFromPtr (d : DigestSize) (s : State) : List Byte := (s.lanes.bytes.take d.bytes).drop s.ptr.toNat

/-- The core after the last SQUEEZE: the registers of R169. -/
def StateDiscarded (d : DigestSize) (u : State) : Prop :=
  u.phase = .done ∧ u.ptr = 0 ∧ u.err = 0x00 ∧ u.lanes = .zero ∧ u.dsz = d.code

/-- The core before a SQUEEZE that reads `z`, with the bytes `zs` to read after it. -/
structure Squeezing (d : DigestSize) (z : Byte) (zs : List Byte) (s : State) : Prop where
  phase : s.phase = .squeeze
  dsz : s.dsz = d.code
  err : s.err = 0x00
  left : s.digestFromPtr d = z :: zs

/-- The core behind FINAL with the bytes `zs` of the digest still to be read. -/
def DigestLeft (d : DigestSize) : List Byte → State → Prop
  | [], s => StateDiscarded d s
  | z :: zs, s => Squeezing d z zs s

theorem Lanes.length_take_bytes (a : Lanes) (d : DigestSize) : (a.bytes.take d.bytes).length = d.bytes := by
  simp [Lanes.bytes, d.bytes_le]

namespace Squeezing
variable {d : DigestSize} {z : Byte} {zs : List Byte} {s : State} {p : StateAddr}

theorem ptr_add_length (h : Squeezing d z zs s) : s.ptr.toNat + (zs.length + 1) = d.bytes := by
  have hlen := congrArg List.length h.left
  rw [State.digestFromPtr, List.length_drop, Lanes.length_take_bytes, List.length_cons] at hlen
  omega

/-- PTR addresses the byte `z`, and the bytes behind it are `zs`. -/
theorem exists_digestPointer (h : Squeezing d z zs s) :
    ∃ p, digestPointer s = .ok (d, p) ∧ p.val = s.ptr.toNat ∧ memRead p s = z ∧
      (s.lanes.bytes.take d.bytes).drop (s.ptr.toNat + 1) = zs := by
  have hsum := h.ptr_add_length
  have hlt : s.ptr.toNat < d.bytes := by omega
  have hlt' : s.ptr.toNat < (s.lanes.bytes.take d.bytes).length := by rwa [Lanes.length_take_bytes]
  have hleft := h.left
  rw [State.digestFromPtr, List.drop_eq_getElem_cons hlt', List.cons.injEq] at hleft
  obtain ⟨hz, hzs⟩ := hleft
  refine ⟨⟨s.ptr.toNat, hlt.trans_le d.bytes_le⟩, digestPointer_eq_ok.2 ⟨h.dsz, rfl, hlt⟩, rfl, ?_, hzs⟩
  simpa [Lanes.bytes, memRead] using hz

/-- The last byte's SQUEEZE discards the state. -/
theorem afterSqueeze_of_last (h : Squeezing d z [] s) (hp : p.val = s.ptr.toNat) :
    StateDiscarded d (respond z (afterSqueeze d p s)) := by
  have hsum : s.ptr.toNat + 1 = d.bytes := h.ptr_add_length
  rw [Machine.afterSqueeze_of_last (by omega)]
  exact ⟨rfl, rfl, h.err, rfl, h.dsz⟩

/-- Before the last byte SQUEEZE moves PTR to the next one. -/
theorem afterSqueeze_of_not_last {y : Byte} (h : Squeezing d z (y :: zs) s) (hp : p.val = s.ptr.toNat)
    (hdrop : (s.lanes.bytes.take d.bytes).drop (s.ptr.toNat + 1) = y :: zs) :
    Squeezing d y zs (respond z (afterSqueeze d p s)) := by
  have hsum : s.ptr.toNat + (zs.length + 1 + 1) = d.bytes := h.ptr_add_length
  have hptr : (s.ptr + 1).toNat = s.ptr.toNat + 1 := toNat_add_one (by omega) d.bytes_le
  rw [Machine.afterSqueeze_of_not_last (by omega)]
  exact {
    phase := h.phase
    dsz := h.dsz
    err := h.err
    left := by
      rw [← hdrop, ← hptr]
      rfl }

theorem issue_squeeze (h : Squeezing d z zs s) :
    ∃ t, issue (encode .squeeze) s = some (t, formatR 0x00 z) ∧ DigestLeft d zs t := by
  obtain ⟨p, hdp, hp, hz, hdrop⟩ := h.exists_digestPointer
  have hexec := execSqueeze_of_digestPointer h.phase hdp
  rw [hz] at hexec
  refine ⟨_, issue_eq_some.2 ⟨hexec, by simp [h.err]⟩, ?_⟩
  cases zs with
  | nil => exact h.afterSqueeze_of_last hp
  | cons y zs => exact h.afterSqueeze_of_not_last hp hdrop

end Squeezing

/-- As many SQUEEZEs as bytes are left read them in order. -/
theorem issueAll_squeezeN {d : DigestSize} {zs : List Byte} {s : State} (h : DigestLeft d zs s) :
    ∃ u, issueAll (squeezeN zs.length) s = some (u, zs.map (formatR 0x00)) ∧ StateDiscarded d u := by
  induction zs generalizing s with
  | nil => exact ⟨s, rfl, h⟩
  | cons z zs ih =>
    obtain ⟨t, ht, hleft⟩ := Squeezing.issue_squeeze h
    obtain ⟨u, hu, hdone⟩ := ih hleft
    exact ⟨u, issueAll_cons_eq_some.2 ⟨t, _, _, ht, hu, rfl⟩, hdone⟩

/-- After FINAL the whole digest window is left. -/
theorem MessageClosed.digestLeft {d : DigestSize} {a : Lanes} {s : State} (h : MessageClosed d a s) :
    DigestLeft d (a.bytes.take d.bytes) s := by
  obtain ⟨rfl, hphase, hptr, herr, hdsz⟩ := h
  have hleft : s.digestFromPtr d = s.lanes.bytes.take d.bytes := by
    rw [State.digestFromPtr, hptr]
    rfl
  have hpos : 0 < (s.lanes.bytes.take d.bytes).length := (s.lanes.length_take_bytes d).symm ▸ d.bytes_pos
  obtain ⟨z, zs, hz⟩ := List.exists_cons_of_length_pos hpos
  rw [hz]
  exact ⟨hphase, hdsz, herr, hleft.trans hz⟩

-- The whole invocation (R168, R169)

theorem sha3_eq_take_bytes (d : DigestSize) (m : List Byte) :
    sha3 d m = (absorbAll (pad m d.rate) d.rate).bytes.take d.bytes := by
  have hle : d.bytes ≤ d.rate := by cases d <;> decide
  rw [sha3, sponge, List.take_take, Nat.min_eq_left hle]

theorem length_sha3 (d : DigestSize) (m : List Byte) : (sha3 d m).length = d.bytes := by
  rw [sha3_eq_take_bytes, Lanes.length_take_bytes]

theorem sha3_d32 (m : List Byte) : sha3 .d32 m = sha3_256 m := rfl

theorem sha3_d64 (m : List Byte) : sha3 .d64 m = sha3_512 m := rfl

/-- From any state the words up to FINAL answer zeros and the SQUEEZEs the digest, with no error. -/
theorem invocation_completes (d : DigestSize) (m : List Byte) (s : State) : ∃ t u,
    issueAll (encode d.start :: (absorbN m ++ [encode .final])) s =
      some (t, List.replicate (m.length + 2) (formatR 0x00 0x00)) ∧
    issueAll (squeezeN d.bytes) t = some (u, (sha3 d m).map (formatR 0x00)) ∧ StateDiscarded d u := by
  obtain ⟨t, ht, hclosed⟩ := issueAll_start_absorbN_final d m s
  have hleft := hclosed.digestLeft
  rw [← sha3_eq_take_bytes] at hleft
  obtain ⟨u, hu, hdone⟩ := issueAll_squeezeN hleft
  rw [length_sha3] at hu
  exact ⟨t, u, ht, hu, hdone⟩

theorem hashWords_eq_append (d : DigestSize) (m : List Byte) :
    hashWords d m = (encode d.start :: (absorbN m ++ [encode .final])) ++ squeezeN d.bytes := by simp [hashWords]

/-- R169 for either digest size. -/
theorem issueAll_hashWords (d : DigestSize) (m : List Byte) (s : State) :
    ∃ u rs, issueAll (hashWords d m) s = some (u, rs) ∧ rs.length = m.length + 2 + d.bytes ∧ cleanResponses rs ∧
      (rs.drop (m.length + 2)).map dataField = sha3 d m ∧ StateDiscarded d u := by
  obtain ⟨t, u, ht, hu, hdone⟩ := invocation_completes d m s
  refine ⟨u, _, (hashWords_eq_append d m).symm ▸ issueAll_append ht hu, ?_, ?_, ?_, hdone⟩
  · rw [List.length_append, List.length_replicate, List.length_map, length_sha3]
  · exact List.forall_mem_append.2 ⟨cleanResponses_replicate _, cleanResponses_map_formatR _⟩
  · rw [List.drop_left' List.length_replicate, map_dataField_map_formatR]

/-- Settles O51: both functions are the invocation of their digest size, whose SQUEEZEs read the window FINAL leaves. -/
theorem invocationComputesTheHash : Obligations.InvocationComputesTheHash :=
  fun m s => ⟨issueAll_hashWords .d32 m s, issueAll_hashWords .d64 m s⟩

-- The host procedures (R170, R171)

section procedure
variable (d : DigestSize) (out input : List Byte) {cap l : Nat} (s : State)

theorem hashProcedure_of_small (h : cap < d.bytes) :
    hashProcedure d (some out) cap input l s = .returned ⟨0x11, some out, s⟩ := if_pos h

/-- With room for the digest the procedure is the invocation: it writes the digest and nothing beyond it. -/
theorem hashProcedure_returns_digest (hcap : d.bytes ≤ cap) (hout : d.bytes ≤ out.length) (hl : l ≤ input.length) :
    ∃ u, hashProcedure d (some out) cap input l s =
        .returned ⟨0x00, some (sha3 d (input.take l) ++ out.drop d.bytes), u⟩ ∧
      u.phase = .done ∧ u.err = 0x00 := by
  obtain ⟨t, u, ht, hu, hphase, -, herr, -⟩ := invocation_completes d (input.take l) s
  have hissue := issueWhileOk_of_issueAll ht (cleanResponses_replicate _)
  have hsqueeze := squeezeInto_of_issueAll (ys := []) hu (cleanResponses_map_formatR _) hout
  rw [map_dataField_map_formatR, List.nil_append, List.nil_append, List.length_nil] at hsqueeze
  refine ⟨u, ?_, hphase, herr⟩
  simp only [hashProcedure, hcap.not_gt, hl.not_gt, hout.not_gt, if_false, hissue, if_true, hsqueeze]

end procedure

/-- Settles O52: the guards answer before any command, and with room for the digest the procedure is the invocation. -/
theorem hostProceduresReturnTheDigest : Obligations.HostProceduresReturnTheDigest :=
  fun out input _ _ s => ⟨rfl, rfl, hashProcedure_of_small .d32 out input s, hashProcedure_of_small .d64 out input s,
    hashProcedure_returns_digest .d32 out input s, hashProcedure_returns_digest .d64 out input s⟩

end Sys2Proof.Machine
end

