-- ==== Sys2Proof/Proofs/Exceptions.lean ====
section
/-! PROOFS. Errors and the FAULT phase (60_exceptions.md R182 to R187): a command other than a START meets FAULT with
its response alone, so a command that ends there raised or met it, and of the commands only a START leaves it. -/

namespace Sys2Proof.Machine

-- Commands in phase FAULT

section inFault
variable {s : State}

theorem execIllegal_of_fault {w : Word} (hf : s.phase = .fault) : execIllegal w s = .next (respond 0x00 s) := if_pos hf

/-- Step 2 of R184 for every word it speaks of: the opcode 0x01 is that of the STARTs and of START.BAD alone. -/
theorem runCommand_of_fault {w : Word} (hf : s.phase = .fault) (hop : opField w ≠ 0x01) :
    runCommand w s = .next (respond 0x00 s) := by
  rw [runCommand]
  cases hw : decode w with
  | instr i =>
    cases i with
    | nop => rfl
    | start256 | start512 =>
      rw [← decode_eq_instr_iff.1 hw] at hop
      exact absurd (opField_formatC _ _) hop
    | absorb v => exact execAbsorb_of_fault hf
    | final => exact execFinal_of_fault hf
    | squeeze => exact execSqueeze_of_fault hf
  | startBad imm =>
    obtain ⟨hstart, -, -, -⟩ := decode_eq_startBad_iff.1 hw
    exact absurd hstart hop
  | illegal v => exact execIllegal_of_fault (w := v) hf

theorem faultFlag_of_fault (hf : s.phase = .fault) : s.faultFlag = true := by
  rw [State.faultFlag_iff, hf]
  rfl

theorem issue_of_fault {w : Word} (hf : s.phase = .fault) (hop : opField w ≠ 0x01) :
    issue w s = some (respond 0x00 s, formatR s.err 0x00) :=
  issue_eq_some.2 ⟨runCommand_of_fault hf hop, respond_rsp 0x00 s⟩

end inFault

/-- Settles O33: the next state is the response alone, so `fault` and `err` show what they showed before. -/
theorem faultPhaseIgnoresCommands : Obligations.FaultPhaseIgnoresCommands :=
  fun _ s hf hop => ⟨respond 0x00 s, runCommand_of_fault hf hop, rfl, faultFlag_of_fault hf, rfl⟩

/-- Settles O34, by induction on the words: the first answers `{ERR, 0x00}` and leaves the registers the others start
from. -/
theorem firstErrorIsReportedThroughout : Obligations.FirstErrorIsReportedThroughout := by
  intro ws
  induction ws with
  | nil => exact fun s hf _ => ⟨s, rfl, rfl, rfl, hf, rfl, rfl, rfl⟩
  | cons w ws ih =>
    intro s hf hops
    obtain ⟨hop, hrest⟩ := List.forall_mem_cons.1 hops
    obtain ⟨u, hu, hregs⟩ := ih (respond 0x00 s) hf hrest
    exact ⟨u, issueAll_cons_eq_some.2 ⟨_, _, _, issue_of_fault hf hop, hu, rfl⟩, hregs⟩

-- Commands that end in phase FAULT

theorem afterSqueeze_phase_ne_fault {s : State} (d : DigestSize) (p : StateAddr) (hq : s.phase = .squeeze) :
    (afterSqueeze d p s).phase ≠ .fault := by
  by_cases hlast : p.val = d.bytes - 1
  · simp [afterSqueeze_of_last hlast]
  · simp [afterSqueeze_of_not_last hlast, hq]

/-- A command ends in phase FAULT in two ways only: it met the phase, or it raised. -/
theorem commandEffect_of_fault {w : Word} {s t : State} (h : CommandEffect w s t) (hf : t.phase = .fault) :
    (s.phase = .fault ∧ t = respond 0x00 s) ∨ ∃ e, t = raiseError e s := by
  cases h with
  | unchanged => exact .inl ⟨hf, rfl⟩
  | raised e => exact .inr ⟨e, rfl⟩
  | started d _ => cases hf
  | absorbed v d p _ ha _ => simp [ha] at hf
  | finished d p _ _ _ => cases hf
  | squeezed d p _ hq _ => exact absurd hf (afterSqueeze_phase_ne_fault d p hq)

/-- Settles O35: both ways to end in phase FAULT write ERR, PHASE and the response at most. -/
theorem errorsArePrecise : Obligations.ErrorsArePrecise := by
  refine ⟨raiseError_eq, fun w s t h hf => ?_⟩
  obtain ⟨hs, rfl⟩ | ⟨e, rfl⟩ := commandEffect_of_fault (runCommand_effect h) hf
  · rw [← hs]
    rfl
  · rfl

-- Commands that store nothing

theorem execCommand_of_decode {w : Word} {c : Command} {s t : State} (hw : decode w = c)
    (h : runCommand w s = .next t) : execCommand c s = .next t := hw ▸ h

/-- A SQUEEZE discards the lanes only with the last byte, and then it leaves phase SQUEEZE (R131, R132). -/
theorem afterSqueeze_lanes_of_squeeze {s : State} {d : DigestSize} {p : StateAddr}
    (h : (afterSqueeze d p s).phase = .squeeze) : (afterSqueeze d p s).lanes = s.lanes := by
  by_cases hlast : p.val = d.bytes - 1
  · simp [afterSqueeze_of_last hlast] at h
  · rw [afterSqueeze_of_not_last hlast]

theorem execSqueeze_lanes_of_squeeze {s t : State} (h : execSqueeze s = .next t) (hq : t.phase = .squeeze) :
    t.lanes = s.lanes := by
  obtain ⟨_, rfl⟩ | ⟨_, rfl⟩ | ⟨_, rfl⟩ | ⟨_, d, p, _, rfl⟩ := execSqueeze_cases h
  · rfl
  · rfl
  · rfl
  · exact afterSqueeze_lanes_of_squeeze hq

/-- Settles O32: none of the three forms writes a lane. -/
theorem otherFormsStoreNothing : Obligations.OtherFormsStoreNothing := by
  intro w s t j h hform
  have hlanes : t.lanes = s.lanes := by
    obtain hw | hf | ⟨hw, hq⟩ := hform
    · obtain rfl : respond 0x00 s = t := Host.Outcome.next.inj (execCommand_of_decode hw h)
      rfl
    · obtain ⟨_, rfl⟩ | ⟨e, rfl⟩ := commandEffect_of_fault (runCommand_effect h) hf
      · rfl
      · rfl
    · exact execSqueeze_lanes_of_squeeze (execCommand_of_decode hw h) hq
  rw [memRead, memRead, hlanes]

-- What each command can make of ERR

section err
variable {s t : State}

theorem execAbsorb_err {v : Byte} (h : execAbsorb v s = .next t) :
    t.err = s.err ∨ t.err = ErrorCode.phase.code := by
  obtain ⟨_, rfl⟩ | ⟨_, _, rfl⟩ | ⟨_, d, p, _, rfl⟩ := execAbsorb_cases h
  · exact .inl rfl
  · exact .inr rfl
  · exact .inl (absorbByte_err d p v s)

theorem execFinal_err (h : execFinal s = .next t) : t.err = s.err ∨ t.err = ErrorCode.phase.code := by
  obtain ⟨_, rfl⟩ | ⟨_, _, rfl⟩ | ⟨_, d, p, _, rfl⟩ := execFinal_cases h
  · exact .inl rfl
  · exact .inr rfl
  · exact .inl (by rw [respond_err, openSqueeze_err, permute_err, injectPadding_err])

theorem execSqueeze_err (h : execSqueeze s = .next t) :
    t.err = s.err ∨ t.err = ErrorCode.phase.code ∨ t.err = ErrorCode.overread.code := by
  obtain ⟨_, rfl⟩ | ⟨_, rfl⟩ | ⟨_, rfl⟩ | ⟨_, d, p, _, rfl⟩ := execSqueeze_cases h
  · exact .inl rfl
  · exact .inr (.inr rfl)
  · exact .inr (.inl rfl)
  · exact .inl (afterSqueeze_err d p s)

theorem execIllegal_err {w : Word} (hf : s.phase ≠ .fault) (h : execIllegal w s = .next t) :
    t.err = ErrorCode.illegalCmd.code := by
  obtain ⟨hs, -⟩ | ⟨_, rfl⟩ := execIllegal_cases h
  · exact absurd hs hf
  · rfl

end err

/-- Settles O36: each command either leaves ERR, which is 0 outside FAULT, or raises one of the codes its own cases
name. -/
theorem commandsRaiseOnlyTheirErrors : Obligations.CommandsRaiseOnlyTheirErrors := by
  refine ⟨fun j v s => ⟨permute_err s, permute_phase s, rfl, rfl⟩, fun w s t h => ⟨?_, ?_, ?_, ?_⟩⟩
  · intro imm hw
    obtain rfl := Host.Outcome.next.inj (execCommand_of_decode hw h)
    exact ⟨rfl, rfl⟩
  · rintro (hw | hw)
    · obtain rfl := Host.Outcome.next.inj (execCommand_of_decode hw h)
      rfl
    · obtain rfl := Host.Outcome.next.inj (execCommand_of_decode hw h)
      rfl
  · intro hf hop
    obtain rfl : respond 0x00 s = t := Host.Outcome.next.inj ((runCommand_of_fault hf hop).symm.trans h)
    exact ⟨rfl, hf⟩
  · intro hf herr
    rw [← herr]
    refine ⟨fun hw => ?_, fun imm hw => execAbsorb_err (execCommand_of_decode hw h),
      fun hw => execFinal_err (execCommand_of_decode hw h), fun hw => execSqueeze_err (execCommand_of_decode hw h),
      fun v hw => execIllegal_err (w := v) hf (execCommand_of_decode hw h)⟩
    obtain rfl : respond 0x00 s = t := Host.Outcome.next.inj (execCommand_of_decode hw h)
    rfl

-- Leaving phase FAULT

/-- The one command that leaves phase FAULT is a START of a legal size (R186). -/
theorem commandEffect_leaves_fault {w : Word} {s t : State} (h : CommandEffect w s t) (hs : s.phase = .fault)
    (ht : t.phase ≠ .fault) : ∃ d : DigestSize, encode d.start = w ∧ t = startInvocation d s := by
  cases h with
  | unchanged => exact absurd hs ht
  | raised e => exact absurd rfl ht
  | started d hw => exact ⟨d, decode_eq_instr_iff.1 hw, rfl⟩
  | absorbed _ _ _ _ ha _ | finished _ _ _ ha _ => simp [hs] at ha
  | squeezed _ _ _ hq _ => simp [hs] at hq

/-- Settles O37: waiting keeps the phase, a command that leaves it is a START, and the Reset event writes IDLE; a START
of another size raises in every phase. -/
theorem onlyStartOrResetLeavesFault : Obligations.OnlyStartOrResetLeavesFault := by
  refine ⟨fun s t hs h ht => ?_, fun imm s _ h32 h64 => ?_⟩
  · obtain ⟨_, rfl⟩ | ⟨w, rest, hin, hw⟩ | ⟨e, rest, hin, he, rfl⟩ := step_cases h
    · exact absurd hs ht
    · obtain ⟨d, rfl, rfl⟩ := commandEffect_leaves_fault (runCommand_effect hw) hs ht
      refine ⟨_, rest, hin, ?_⟩
      cases d with
      | d32 => exact .inl ⟨rfl, rfl, rfl, rfl⟩
      | d64 => exact .inr (.inl ⟨rfl, rfl, rfl, rfl⟩)
    · exact ⟨e, rest, hin, .inr (.inr ⟨he, rfl⟩)⟩
  · obtain ⟨t, h, -, rfl⟩ := startOfAnotherSizeFaults imm s h32 h64
    exact ⟨_, h, rfl, rfl⟩

end Sys2Proof.Machine
end

