-- ==== Sys2Proof/Proofs/Reset.lean ====
section
/-! PROOFS. Reset, progress and the command port (70_reset_and_hazards.md R210 to R221): the Reset event at a step and at
a tick, the core with nothing presented or with a command in progress, and the completion of every command word. -/

namespace Sys2Proof

/-- Opcode 0x01 is that of the START forms: whatever the operand, the word decodes to one of the three. -/
theorem isStart_decode {w : Word} (hop : opField w = 0x01) : (decode w).isStart = true := by
  simp only [decode, if_pos hop]
  split
  · rfl
  · split
    · rfl
    · rfl

end Sys2Proof

namespace Sys2Proof.Machine

-- Every command word completes

/-- A START form runs the same in every state: it asks neither for a phase nor for a pointer in range. -/
theorem execCommand_completes_of_isStart {c : Command} (h : c.isStart = true) (s : State) :
    ∃ t, execCommand c s = .next t := by
  cases c with
  | startBad imm => exact ⟨_, rfl⟩
  | illegal v => cases h
  | instr i =>
    cases i with
    | start256 | start512 => exact ⟨_, rfl⟩
    | nop | absorb _ | final | squeeze => cases h

/-- Settles O41: under R33 every command completes, a START form does without it, and a command that completes
responds. -/
theorem everyCommandCompletes : Obligations.EveryCommandCompletes := by
  intro w s h
  have hnext : ∃ t, runCommand w s = .next t := by
    obtain hs | hop := h
    · exact runCommand_completes w hs
    · exact execCommand_completes_of_isStart (isStart_decode hop) s
  obtain ⟨t, ht⟩ := hnext
  exact ⟨t, _, ht, runCommand_rsp ht⟩

-- A step with no command at the inputs

section step
variable {s : State} {rest : List PortEvent}

theorem step_of_no_inputs (h : s.inputs = []) : step s = .next (waitForHost s) := by
  simp only [step, h]

theorem step_of_reset (h : s.inputs = .reset :: rest) : step s = .next { State.reset with inputs := rest } := by
  simp only [step, h, resetEvent_eq]

theorem step_of_resetDuring {w : Word} (h : s.inputs = .resetDuring w :: rest) :
    step s = .next { State.reset with inputs := rest } := by
  simp only [step, h, resetEvent_eq]

end step

/-- Settles O6: the step is `waitForHost`, which writes the response port alone. -/
theorem coreWaitsForTheHost : Obligations.CoreWaitsForTheHost := fun _ h => step_of_no_inputs h

-- A tick, by `rst` and by the command in progress

theorem tick_of_rst {pins : Pins} (h : pins.rst = true) (p : PortState) :
    tick pins p = .next ⟨{ State.reset with inputs := p.core.inputs }, none⟩ := by
  rw [tick, if_pos h, resetEvent_eq]

theorem PortState.cmdReady_eq_false_iff {p : PortState} : p.outputs.cmdReady = false ↔ ∃ j, p.job = some j := by
  have hready : p.outputs.cmdReady = !p.job.isSome := rfl
  rw [hready, Bool.not_eq_false', Option.isSome_iff_exists]

/-- With a command in progress no branch of the tick reads `cmd_valid` or `cmd`. -/
theorem tick_of_job {pins pins' : Pins} (hrst : pins.rst = pins'.rst) (c : State) (j : Job) :
    tick pins ⟨c, some j⟩ = tick pins' ⟨c, some j⟩ := by
  cases j with
  | accepted w => simp only [tick, hrst]
  | permuting k => simp only [tick, hrst]

/-- Settles O2: step and tick both give the reset state, whose outputs are those of Table 10-2. -/
theorem resetEventGivesTheResetState : Obligations.ResetEventGivesTheResetState :=
  ⟨fun _ _ h => step_of_reset h, fun _ p h => ⟨_, tick_of_rst h p, rfl, rfl, rfl, rfl, rfl, rfl⟩⟩

/-- Settles O3: the reset state replaces the state of the command, and the tick leaves no command in progress. -/
theorem resetDuringACommandDiscardsIt : Obligations.ResetDuringACommandDiscardsIt :=
  ⟨fun _ _ _ h => step_of_resetDuring h, fun _ p h _ => ⟨_, tick_of_rst h p, rfl, rfl, rfl⟩⟩

/-- Settles O55: `cmd_ready` at 0 says that a command is in progress. -/
theorem busyCoreAcceptsNoCommand : Obligations.BusyCoreAcceptsNoCommand := by
  rintro ⟨c, job⟩ pins pins' hready hrst
  obtain ⟨j, rfl⟩ : ∃ j, job = some j := PortState.cmdReady_eq_false_iff.1 hready
  exact tick_of_job hrst c j

end Sys2Proof.Machine
end
